-- ==== Sys2Proof/Word.lean ====
section
/-! DEFINITION. The machine word: every register, memory cell and pointer register of the core is 16 bits wide
(00_scope.md R7). Bit 0 is the least significant bit (R17). -/

namespace Sys2Proof

/-- A 16-bit word, an unsigned value in [0, 65535] (R7). -/
abbrev Word := BitVec 16

end Sys2Proof
end

