-- ==== Sys2Proof/Config.lean ====
section
/-! DEFINITION. The implementation parameters of 00_scope.md section 4 (R6 to R16), as one record of plain data. The
spec lets a model take each of them as an argument; this one keeps the record in State (field `cfg`), so that a
statement about every state is a statement about every value of every parameter (log entry 1). -/

namespace Sys2Proof

/-- OPS_PROFILE (R6): which instructions the decoder admits. -/
inductive Profile where
  | core
  | provisional
  deriving DecidableEq, Repr

/-- R_POLICY (R14): what an opcode word with I = 1 and the reserved bit R = 1 does. -/
inductive RPolicy where
  | fault
  | ignore
  deriving DecidableEq, Repr

/-- The values SUBMODE_MAP can give a 2-bit sub-mode (R13). -/
inductive SubMode where
  | ptr
  | ptrInc
  | ptrDec
  | reserved
  deriving DecidableEq, Repr

/-- SUBMODE_MAP (R13): the meaning of each value of the 2-bit sub-mode field. -/
structure SubModeMap where
  sm0 : SubMode
  sm1 : SubMode
  sm2 : SubMode
  sm3 : SubMode
  deriving DecidableEq, Repr

/-- The six addressing modes that have a cycle cost (R11). -/
inductive ModeKind where
  | direct
  | immediate
  | ptr
  | ptrInc
  | ptrDec
  | wordDirect
  deriving DecidableEq, Repr

/-- CYCLES (R11): one cycle cost per addressing mode. -/
structure Cycles where
  direct : Nat
  immediate : Nat
  ptr : Nat
  ptrInc : Nat
  ptrDec : Nat
  wordDirect : Nat
  deriving DecidableEq, Repr

/-- FCODE (R16): the 4-bit function code of each mnemonic that is selected by one. -/
structure FCodes where
  sub : BitVec 4
  sto : BitVec 4
  lda : BitVec 4
  add : BitVec 4
  cmp : BitVec 4
  and : BitVec 4
  neq : BitVec 4
  jmp : BitVec 4
  deriving DecidableEq, Repr

/-- Every parameter of 00_scope.md section 4. They are fixed for a run (44_controller.md R112). -/
structure Config where
  /-- OPS_PROFILE (R6). -/
  profile : Profile
  /-- MEMTOP, the highest valid memory address (R8). -/
  memTop : Word
  /-- ENTRY, the address reset loads into PC (R9). -/
  entry : Word
  /-- CYCLES (R11). -/
  cycles : Cycles
  /-- SENTINEL, what a memory word that was not loaded holds (R12). -/
  sentinel : Word
  /-- SUBMODE_MAP (R13). -/
  subModes : SubModeMap
  /-- R_POLICY (R14). -/
  rPolicy : RPolicy
  /-- HALT_MASK (R15). -/
  haltMask : Word
  /-- HALT_MATCH (R15). -/
  haltMatch : Word
  /-- FCODE (R16). -/
  fcode : FCodes
  deriving DecidableEq, Repr

/-- The cycle cost of each addressing mode in the configuration that reset starts from: a FREE VALUE. R11 gives no
default ("rather than hard-coding undocumented values"), so nothing here says what it is (log entry 4). -/
opaque Config.openCycles : ModeKind → Nat

end Sys2Proof
end

