-- ==== Sys2Proof/Machine/Defaults.lean ====
section
/-! DEFINITION. The values of the implementation parameters: the spec's defaults (00_scope.md R6 to R16), and the
configuration that State.reset starts from. -/

namespace Sys2Proof

/-- SUBMODE_MAP's default (R13, decision D8): 00 /P, 01 /P+, 10 /P-, 11 reserved. DESIGN CHOICE of the spec, log entry
13. -/
def SubModeMap.specDefault : SubModeMap := ⟨.ptr, .ptrInc, .ptrDec, .reserved⟩

/-- FCODE's defaults (R16), marked by the spec as general knowledge. PRESUMED, log entry 12. -/
def FCodes.specDefault : FCodes where
  sub := 0xA#4
  sto := 0x4#4
  lda := 0x8#4
  add := 0x9#4
  cmp := 0xB#4
  and := 0xC#4
  neq := 0xD#4
  jmp := 0xF#4

/-- The spec's defaults (R6, R8, R9, R13 to R16), with the OPEN parameters filled in as the log says: CYCLES (R11) by
the free value `openCycles` (log entry 4) and SENTINEL (R12) by 0xEEEE, a word that selects no instruction in either
profile (DESIGN CHOICE, log entry 3). -/
def Config.specDefault : Config where
  profile := .core
  memTop := 0x7FFF#16
  entry := 0#16
  cycles :=
    { direct := Config.openCycles .direct
      immediate := Config.openCycles .immediate
      ptr := Config.openCycles .ptr
      ptrInc := Config.openCycles .ptrInc
      ptrDec := Config.openCycles .ptrDec
      wordDirect := Config.openCycles .wordDirect }
  sentinel := 0xEEEE#16
  subModes := SubModeMap.specDefault
  rPolicy := .fault
  haltMask := 0xFC00#16
  haltMatch := 0x0400#16
  fcode := FCodes.specDefault

/-- The configuration that State.reset starts from: the spec's defaults but for OPS_PROFILE = Provisional, so that
every instruction the spec describes can run from reset (DESIGN CHOICE, log entry 2). R69 and R70 give SUB and HALT the
same words in both profiles. -/
def Config.model : Config := { Config.specDefault with profile := .provisional }

end Sys2Proof
end

