-- ==== Sys2Proof/Syntax.lean ====
section
/-! DEFINITION. The instructions, whole: one constructor of `Instr` for each row of spec/opcode_table.json, over the
operand fields of the two formats of 30_encoding.md (R62 to R64). The controller dispatches on the function code; the
operand resolver reads the remaining fields (R62), so an operand is kept as its fields and no bit is lost. The extension
word is no part of the opcode word: the resolver reads it from memory (R65). -/

namespace Sys2Proof

/-- The operand fields of an opcode word, bits 11 to 0. -/
inductive Operand where
  /-- Format A (R63): I = 0 and the 11-bit field N. -/
  | formatA (n : BitVec 11)
  /-- Format B (R64): I = 1, the reserved bit R, the 2-bit sub-mode SM and the 8-bit pointer index P. -/
  | formatB (r : Bool) (sm : BitVec 2) (p : BitVec 8)
  deriving DecidableEq, Repr

/-- The instructions of the opcode table. -/
inductive Instr where
  /-- SUB, subtract with carry (41_arithmetic.md R91). -/
  | sub (op : Operand)
  /-- HALT (43_control.md R99). `k` holds the bits of the word that HALT_MASK leaves out, which are ignored; with the
  default mask they are bits 9 to 0. -/
  | halt (k : Word)
  /-- LDA, load accumulator (42_logic_and_move.md R95). -/
  | lda (op : Operand)
  /-- STO, store accumulator (42_logic_and_move.md R96). -/
  | sto (op : Operand)
  /-- ADD, add with carry (41_arithmetic.md R93). -/
  | add (op : Operand)
  /-- CMP, compare (41_arithmetic.md R94). -/
  | cmp (op : Operand)
  /-- AND, logical and (42_logic_and_move.md R97). -/
  | and (op : Operand)
  /-- NEQ, logical exclusive or (42_logic_and_move.md R98). -/
  | neq (op : Operand)
  /-- JMP, unconditional jump (43_control.md R100). -/
  | jmp (op : Operand)
  deriving DecidableEq, Repr

/-- The operand fields of an instruction; HALT has none. -/
def Instr.operand? : Instr → Option Operand
  | .sub op | .lda op | .sto op | .add op | .cmp op | .and op | .neq op | .jmp op => some op
  | .halt _ => none

/-- The addressing mode an opcode word selects (30_encoding.md R66). -/
inductive Mode where
  | direct (n : BitVec 11)
  | immediate
  | ptr (p : BitVec 8)
  | ptrInc (p : BitVec 8)
  | ptrDec (p : BitVec 8)
  | wordDirect
  | reservedR
  | reservedSubMode
  deriving DecidableEq, Repr

end Sys2Proof
end

