-- ==== Sys2Proof/WellFormed.lean ====
section
/-! DEFINITION. Which instructions have an encoding under a configuration, which configurations give every instruction
a word of its own, and which addressing modes an encoder may write (30_encoding.md R69, R70, R74). -/

namespace Sys2Proof

/-- The function code that selects an instruction; HALT is selected by its pattern and not by a function code (R15,
R16). -/
def Config.fcodeOf (cfg : Config) : Instr → Option (BitVec 4)
  | .sub _ => some cfg.fcode.sub
  | .sto _ => some cfg.fcode.sto
  | .lda _ => some cfg.fcode.lda
  | .add _ => some cfg.fcode.add
  | .cmp _ => some cfg.fcode.cmp
  | .and _ => some cfg.fcode.and
  | .neq _ => some cfg.fcode.neq
  | .jmp _ => some cfg.fcode.jmp
  | .halt _ => none

/-- Whether a profile admits an instruction (R6): Core admits SUB and HALT only. -/
def Profile.admits : Profile → Instr → Bool
  | .provisional, _ => true
  | .core, .sub _ | .core, .halt _ => true
  | .core, .lda _ | .core, .sto _ | .core, .add _ | .core, .cmp _ => false
  | .core, .and _ | .core, .neq _ | .core, .jmp _ => false

/-- An instruction is well formed under a configuration when its profile admits it and, for HALT, the ignored bits lie
outside HALT_MASK, so that the word matches HALT_MATCH (R15). -/
def Instr.wf (cfg : Config) (i : Instr) : Bool :=
  cfg.profile.admits i &&
  match i with
  | .halt k => k &&& cfg.haltMask == 0#16
  | .sub _ | .lda _ | .sto _ | .add _ | .cmp _ | .and _ | .neq _ | .jmp _ => true

/-- The function codes in the order in which R70 tries them. -/
def FCodes.toList (f : FCodes) : List (BitVec 4) :=
  [f.sto, f.lda, f.add, f.sub, f.cmp, f.and, f.neq, f.jmp]

/-- No word of function code `f` matches the HALT pattern: the pattern tests a bit of the function code and differs from
`f` there. -/
def Config.haltApart (cfg : Config) (f : BitVec 4) : Bool :=
  (cfg.haltMatch.extractLsb' 12 4 ^^^ f) &&& cfg.haltMask.extractLsb' 12 4 != 0#4

/-- A configuration is well formed when the function codes differ, HALT_MATCH lies inside HALT_MASK (else no word is
HALT), and the HALT pattern meets no function code ("with the defaults they do not overlap", R69). -/
def Config.wf (cfg : Config) : Bool :=
  decide cfg.fcode.toList.Nodup &&
  (cfg.haltMatch &&& cfg.haltMask == cfg.haltMatch) &&
  cfg.fcode.toList.all cfg.haltApart

/-- The field ranges an encoder must respect (R74): N of a Direct operand is not 0, P of a pointer operand is not 0, and
a reserved mode is nothing an encoder writes. -/
def Mode.wf : Mode → Bool
  | .direct n => n != 0#11
  | .ptr p | .ptrInc p | .ptrDec p => p != 0#8
  | .immediate | .wordDirect => true
  | .reservedR | .reservedSubMode => false

end Sys2Proof
end

