-- ==== Sys2Proof/Decode.lean ====
section
/-! DEFINITION. Decoding an opcode word: its fields (30_encoding.md R62 to R64), the addressing mode (R66), the length
(R67) and the instruction (R69, R70); and after it the encoder, written from the same formats (R63, R64, R73). -/

namespace Sys2Proof

/-! ### Decoding -/

/-- The function code F = w[15:12] (R62). -/
def functionCode (w : Word) : BitVec 4 := w.extractLsb' 12 4

/-- The mode selector I = w[11] (R62). -/
def modeSelector (w : Word) : Bool := w.getLsbD 11

/-- The operand fields of an opcode word (R63, R64). -/
def decodeOperand (w : Word) : Operand :=
  if modeSelector w then .formatB (w.getLsbD 10) (w.extractLsb' 8 2) (w.extractLsb' 0 8)
  else .formatA (w.extractLsb' 0 11)

/-- SUBMODE_MAP applied to the sub-mode field (00_scope.md R13). -/
def SubModeMap.get (m : SubModeMap) (sm : BitVec 2) : SubMode :=
  if sm = 0#2 then m.sm0 else if sm = 1#2 then m.sm1 else if sm = 2#2 then m.sm2 else m.sm3

/-- The addressing mode that the operand fields select (R66). -/
def Operand.mode (cfg : Config) : Operand → Mode
  | .formatA n => if n ≠ 0#11 then .direct n else .immediate
  | .formatB r sm p =>
    if r = true ∧ cfg.rPolicy = .fault then .reservedR
    else if p = 0#8 then .wordDirect
    else match cfg.subModes.get sm with
      | .ptr => .ptr p
      | .ptrInc => .ptrInc p
      | .ptrDec => .ptrDec p
      | .reserved => .reservedSubMode

/-- L(w), the length of an instruction in words, told from the opcode word alone (R67, R68). -/
def wordLength (w : Word) : Nat :=
  if (w.getLsbD 11 = false ∧ w.extractLsb' 0 11 = 0#11) ∨ (w.getLsbD 11 = true ∧ w.extractLsb' 0 8 = 0#8) then 2
  else 1

/-- What the decoder makes of an opcode word: an instruction, or the refusal NoHandler by name (R69). -/
inductive Decoded where
  | instr (i : Instr)
  | noHandler
  deriving DecidableEq, Repr

/-- Whether a word is the HALT instruction (00_scope.md R15). -/
def isHalt (cfg : Config) (w : Word) : Bool := w &&& cfg.haltMask == cfg.haltMatch

/-- The HALT instruction of a word that matches: the bits outside HALT_MASK are kept (and ignored). -/
def haltOf (cfg : Config) (w : Word) : Instr := .halt (w &&& ~~~cfg.haltMask)

/-- Decode_Core (R69): HALT is tested first, then SUB; nothing else has a handler. -/
def decodeCore (cfg : Config) (w : Word) : Decoded :=
  if isHalt cfg w then .instr (haltOf cfg w)
  else if functionCode w = cfg.fcode.sub then .instr (.sub (decodeOperand w))
  else .noHandler

/-- Decode_Prov (R70): HALT is tested first, then the function codes in the order R70 lists them (log entry 11 for
function codes that coincide). -/
def decodeProv (cfg : Config) (w : Word) : Decoded :=
  if isHalt cfg w then .instr (haltOf cfg w)
  else if functionCode w = cfg.fcode.sto then .instr (.sto (decodeOperand w))
  else if functionCode w = cfg.fcode.lda then .instr (.lda (decodeOperand w))
  else if functionCode w = cfg.fcode.add then .instr (.add (decodeOperand w))
  else if functionCode w = cfg.fcode.sub then .instr (.sub (decodeOperand w))
  else if functionCode w = cfg.fcode.cmp then .instr (.cmp (decodeOperand w))
  else if functionCode w = cfg.fcode.and then .instr (.and (decodeOperand w))
  else if functionCode w = cfg.fcode.neq then .instr (.neq (decodeOperand w))
  else if functionCode w = cfg.fcode.jmp then .instr (.jmp (decodeOperand w))
  else .noHandler

/-- The controller's instruction selection (44_controller.md R106). -/
def decode (cfg : Config) (w : Word) : Decoded :=
  match cfg.profile with
  | .core => decodeCore cfg w
  | .provisional => decodeProv cfg w

/-- The word number `k` of an instruction whose bits are `w`, bit 0 the least significant bit of the first word. -/
def tableWord (nbits w k : Nat) : Word := BitVec.ofNat 16 (w % 2 ^ nbits / 2 ^ (16 * k))

/-- The instruction the decoder reads from an opcode-table word, under the configuration that State.reset starts from.
Only the first word selects the instruction (R68); every memory cell is a whole word, so no byte order arises (20_memory.md
R46). -/
def decodeTableWord (nbits w : Nat) : Option Instr :=
  match decode Config.model (tableWord nbits w 0) with
  | .instr i => some i
  | .noHandler => none

/-! ### Encoding -/

/-- Bits 11 to 0 of the opcode word: N (R63), or `0x0800 | R<<10 | SM<<8 | P` (R64). -/
def encodeOperand : Operand → Word
  | .formatA n => n.setWidth 16
  | .formatB r sm p =>
    0x0800#16 ||| (BitVec.ofBool r).setWidth 16 <<< 10 ||| sm.setWidth 16 <<< 8 ||| p.setWidth 16

/-- `F<<12` and the operand fields (R62, R73). -/
def encodeFields (f : BitVec 4) (op : Operand) : Word := f.setWidth 16 <<< 12 ||| encodeOperand op

/-- The opcode word of an instruction: the function code and the operand fields, or HALT_MATCH and the ignored bits
(R73). -/
def encode (cfg : Config) : Instr → Word
  | .sub op => encodeFields cfg.fcode.sub op
  | .halt k => cfg.haltMatch ||| k
  | .lda op => encodeFields cfg.fcode.lda op
  | .sto op => encodeFields cfg.fcode.sto op
  | .add op => encodeFields cfg.fcode.add op
  | .cmp op => encodeFields cfg.fcode.cmp op
  | .and op => encodeFields cfg.fcode.and op
  | .neq op => encodeFields cfg.fcode.neq op
  | .jmp op => encodeFields cfg.fcode.jmp op

/-- The words of an instruction in memory order: the opcode word, and after it the extension word `x` where the length
is 2 (R65, R67, R73). -/
def assemble (cfg : Config) (i : Instr) (x : Word) : List Word :=
  if wordLength (encode cfg i) = 2 then [encode cfg i, x] else [encode cfg i]

/-- The sub-mode bits an encoder writes for a pointer mode: the lowest value that SUBMODE_MAP gives that meaning. -/
def SubModeMap.find (m : SubModeMap) (k : SubMode) : Option (BitVec 2) :=
  if m.sm0 = k then some 0#2 else if m.sm1 = k then some 1#2
  else if m.sm2 = k then some 2#2 else if m.sm3 = k then some 3#2 else none

/-- The operand fields the notation of R73 writes for an addressing mode, within the ranges of R74; none where the mode
is not well formed or SUBMODE_MAP gives no sub-mode its meaning. -/
def Mode.toOperand (cfg : Config) (m : Mode) : Option Operand :=
  if m.wf then
    match m with
    | .direct n => some (.formatA n)
    | .immediate => some (.formatA 0#11)
    | .ptr p => (cfg.subModes.find .ptr).map fun sm => .formatB false sm p
    | .ptrInc p => (cfg.subModes.find .ptrInc).map fun sm => .formatB false sm p
    | .ptrDec p => (cfg.subModes.find .ptrDec).map fun sm => .formatB false sm p
    | .wordDirect => some (.formatB false 0#2 0#8)
    | .reservedR | .reservedSubMode => none
  else none

end Sys2Proof
end

