-- ==== Sys2Proof/Machine/State.lean ====
section
/-! DEFINITION. The state of the core (10_state.md), every piece the spec names, as plain data, and State.reset. -/

namespace Sys2Proof.Machine

/-- The memory array MEM[0..MEMTOP] (10_state.md R36), one 16-bit word a cell ("there is no smaller addressable unit",
20_memory.md R42; log entry 18). It lists the words that differ from SENTINEL, addresses strictly rising; an address in
range that is not listed reads SENTINEL (R52). `Memory.wf` says that form. -/
abbrev Mem := List (Nat × Word)

/-- The condition register: seven independent flags, each exactly 0 or 1 (R26; 90_conflicts.md C1). It has no packed
word form (R34). -/
structure CondReg where
  /-- Interrupt-enable or reserved, not acted on (R27). -/
  i : Bool
  /-- Zero (R28). -/
  z : Bool
  /-- Signed overflow (R29). -/
  v : Bool
  /-- Sign (R30). -/
  s : Bool
  /-- Carry or borrow out of bit 15 (R31). -/
  c : Bool
  /-- Multi-length chaining (R32). -/
  m : Bool
  /-- Unused or reserved (R33). -/
  f : Bool
  deriving DecidableEq, Repr

/-- The reasons of an UnimplementedOpcodeFault (60_exceptions.md R119). -/
inductive OpcodeReason where
  /-- No handler in the active profile (30_encoding.md R69, R70). -/
  | noHandler
  /-- I = 1, R = 1 and R_POLICY = Fault (40_addressing.md R82). -/
  | reservedR
  /-- The sub-mode that SUBMODE_MAP leaves reserved (40_addressing.md R83). -/
  | reservedSubMode
  /-- STO in the Immediate mode (42_logic_and_move.md R96). -/
  | noEffectiveAddress
  deriving DecidableEq, Repr

/-- The two faults of the core with their info (60_exceptions.md R118, R119). -/
inductive CoreFault where
  | addressRange (address : Word)
  | unimplementedOpcode (reason : OpcodeReason) (w pc0 : Word)
  deriving DecidableEq, Repr

/-- STATUS, the controller's state (10_state.md R37). -/
inductive Status where
  | running
  | halted
  | faulted (fault : CoreFault)
  deriving DecidableEq, Repr

/-- What a step reports to its caller (00_scope.md R22). -/
inductive StepResult where
  | continue_ (cycles : Nat)
  | halt
  | fault (fault : CoreFault)
  deriving DecidableEq, Repr

/-- The kinds of traced access (20_memory.md R50). -/
inductive AccessKind where
  | read
  | write
  deriving DecidableEq, Repr

/-- One event of the trace side channel (20_memory.md R50). -/
structure TraceEvent where
  kind : AccessKind
  address : Word
  value : Word
  deriving DecidableEq, Repr

/-- The state of the machine. -/
structure State where
  /-- The implementation parameters, fixed for a run (00_scope.md section 4; log entry 1). -/
  cfg : Config
  /-- ACC (R23). -/
  acc : Word
  /-- OR (R24). -/
  or : Word
  /-- PC (R25). -/
  pc : Word
  /-- CR (R26 to R34). -/
  cr : CondReg
  /-- PTR[0..255] (R35), separate storage. -/
  ptr : Vector Word 256
  /-- MEM[0..MEMTOP] (R36). -/
  mem : Mem
  /-- STATUS (R37). -/
  status : Status
  /-- The trace side channel (20_memory.md R50): none when no tracer is attached, else the events the tracer was given,
  the latest first. No rule reads it (log entry 8). -/
  tracer : Option (List TraceEvent)
  /-- What the last step reported (00_scope.md R22, 44_controller.md R110); none before the first step after a reset.
  The model's own field (log entry 7): no step reads it. -/
  result : Option StepResult
  deriving DecidableEq, Repr

/-- Why a step has no next state. -/
inductive Fault where
  /-- Raised by `step` when STATUS is Halted: the core has no step there (44_controller.md R103, R111). Safe: the spec
  gives the core no behaviour in this state. -/
  | steppedWhileHalted
  /-- Raised by `step` when STATUS is Faulted: the core has no step there (44_controller.md R103, R111). Safe: the spec
  gives the core no behaviour in this state. -/
  | steppedWhileFaulted
  deriving DecidableEq, Repr

/-- Why an instruction is refused. -/
inductive Refusal where
  /-- Answered by `exec` for an instruction with no meaning yet; no arm answers it. Safe: nothing is claimed. -/
  | notModelled (mnemonic : String)
  deriving DecidableEq, Repr

/-- The condition register with every flag 0 (R132). -/
def CondReg.cleared : CondReg :=
  { i := false, z := false, v := false, s := false, c := false, m := false, f := false }

/-- The machine right after reset (70_reset_and_hazards.md R132), from a launch in which nothing is loaded. ACC, OR and
the flags are 0, PC is ENTRY, STATUS is Running. Reset keeps memory and the pointer file (R133), so their contents are
the launch's: memory lists nothing, so every word reads SENTINEL, and every pointer register is 0 (DESIGN CHOICE, log
entry 5). No tracer is attached (log entry 8) and no step has reported (log entry 7). -/
def State.reset : State where
  cfg := Config.model
  acc := 0#16
  or := 0#16
  pc := Config.model.entry
  cr := CondReg.cleared
  ptr := Vector.replicate 256 0#16
  mem := []
  status := .running
  tracer := none
  result := none

end Sys2Proof.Machine
end

