-- ==== Sys2Proof/Machine/Ops.lean ====
section
/-! DEFINITION. The named operations every instruction is written over: memory (20_memory.md R43, R44, R50), pointer
registers, and the three ways an instruction ends (00_scope.md R21, R22): it continues, halts, or raises a fault. -/

namespace Sys2Proof.Machine

/-! ### The memory array -/

/-- The word a memory lists at an address, or SENTINEL where it lists none (R52). -/
def Memory.get (sentinel : Word) : Mem → Nat → Word
  | [], _ => sentinel
  | (b, v) :: rest, a => if a = b then v else Memory.get sentinel rest a

/-- The memory with `v` at address `a`, in the canonical form: a word equal to SENTINEL is not listed. -/
def Memory.set (sentinel : Word) : Mem → Nat → Word → Mem
  | [], a, v => if v = sentinel then [] else [(a, v)]
  | (b, u) :: rest, a, v =>
    if a < b then (if v = sentinel then (b, u) :: rest else (a, v) :: (b, u) :: rest)
    else if a = b then (if v = sentinel then rest else (a, v) :: rest)
    else (b, u) :: Memory.set sentinel rest a v

/-- Every listed address is at least `lo`. -/
def Memory.above (lo : Nat) : Mem → Bool
  | [] => true
  | (a, _) :: rest => decide (lo ≤ a) && Memory.above lo rest

/-- The canonical form: addresses strictly rising and at most MEMTOP, and no listed word equal to SENTINEL. -/
def Memory.wf (sentinel : Word) (top : Nat) : Mem → Bool
  | [] => true
  | (a, v) :: rest =>
    decide (a ≤ top) && decide (v ≠ sentinel) && Memory.above (a + 1) rest && Memory.wf sentinel top rest

/-- Whether an address names a word of memory (20_memory.md R42). -/
def State.inRange (s : State) (a : Word) : Bool := a.toNat ≤ s.cfg.memTop.toNat

/-- The word of memory at an address, as the host observes it: no trace, no fault, SENTINEL where nothing is listed. -/
def State.peek (s : State) (a : Word) : Word := Memory.get s.cfg.sentinel s.mem a.toNat

/-- The state with one word of memory replaced. It does not test the range and does not trace. -/
def State.poke (s : State) (a v : Word) : State :=
  { s with mem := Memory.set s.cfg.sentinel s.mem a.toNat v }

/-! ### Pointer registers -/

/-- PTR[p] (10_state.md R35). -/
def State.pointer (s : State) (p : BitVec 8) : Word := s.ptr[p.toNat]

/-- PTR[p] <- v. -/
def State.setPointer (s : State) (p : BitVec 8) (v : Word) : State :=
  { s with ptr := s.ptr.set p.toNat v }

/-! ### The parts of an instruction -/

/-- What a part of an instruction comes to: a value and the state so far, or a fault raised in the state so far. Every
change made before a raise stays made (00_scope.md R21; 40_addressing.md R89). -/
inductive Part (α : Type) where
  | ok (a : α) (s : State)
  | raised (f : CoreFault) (s : State)
  deriving DecidableEq, Repr

/-- One part after another: a raise ends the instruction at once (R21). -/
def Part.andThen {α β : Type} (x : Part α) (next : α → State → Part β) : Part β :=
  match x with
  | .ok a s => next a s
  | .raised f s => .raised f s

/-- The state at the end of a part, raised or not. -/
def Part.state {α : Type} : Part α → State
  | .ok _ s => s
  | .raised _ s => s

/-! ### Memory access -/

/-- The trace side channel receives an event when a tracer is attached (20_memory.md R50). -/
def State.emit (s : State) (e : TraceEvent) : State := { s with tracer := s.tracer.map (e :: ·) }

/-- MemRead(a) (20_memory.md R43): the range test, the trace, the word. -/
def memRead (a : Word) (s : State) : Part Word :=
  if s.inRange a then .ok (s.peek a) (s.emit ⟨.read, a, s.peek a⟩)
  else .raised (.addressRange a) s

/-- MemWrite(a, v) for any integer v (20_memory.md R44): the range test, the trace, the store of `v & 0xFFFF`. -/
def memWrite (a : Word) (v : Int) (s : State) : Part Unit :=
  if s.inRange a then
    let u := BitVec.ofInt 16 v
    .ok () ((s.emit ⟨.write, a, u⟩).poke a u)
  else .raised (.addressRange a) s

/-! ### How an instruction ends -/

/-- A fault (44_controller.md R109): STATUS becomes Faulted(fault, info) and the step reports Fault(fault, info).
Nothing is saved, nothing is undone and control goes nowhere (60_exceptions.md R123). The only way out is `resetOp`. -/
def takeFault (f : CoreFault) (s : State) : State :=
  { s with status := .faulted f, result := some (.fault f) }

/-- HALT's end (44_controller.md R108): STATUS becomes Halted and the step reports Halt. -/
def takeHalt (s : State) : State := { s with status := .halted, result := some .halt }

/-- The end of an instruction that completes (44_controller.md R107, R110): the step reports Continue(cycles). -/
def complete (cycles : Nat) (s : State) : State := { s with result := some (.continue_ cycles) }

/-- The outcome of a handler that returns its cycle count or raises. A raise is a next state whose STATUS is Faulted
(log entry 6). -/
def Part.finish : Part Nat → Host.Outcome State Fault Refusal
  | .ok cycles s => .next (complete cycles s)
  | .raised f s => .next (takeFault f s)

/-- The reset operation (70_reset_and_hazards.md R132 to R134), in any STATUS. Memory, the pointer file, the parameters
and an attached tracer stay as they are; the result of an earlier step is cleared (log entry 7). -/
def resetOp (s : State) : State :=
  { s with
    acc := 0#16
    or := 0#16
    cr := CondReg.cleared
    pc := s.cfg.entry
    status := .running
    result := none }

end Sys2Proof.Machine
end

