-- ==== Sys2Proof/Machine/Controller.lean ====
section
/-! DEFINITION. The controller's fetch and program-counter advance (44_controller.md R104, R105), and the store of an
instruction's words from outside the machine. -/

namespace Sys2Proof.Machine

/-- The fetch of a step: `w <- MemRead(PC)`, which may raise before any state changes (R104), and then
`PC <- (pc0 + L(w)) mod 2^16` (R105). -/
def fetch (s : State) : Part Word :=
  (memRead s.pc s).andThen fun w s1 => .ok w { s1 with pc := s.pc + BitVec.ofNat 16 (wordLength w) }

/-- The end of a step whose opcode word has no handler (R106): no operand resolution, no access beyond the fetch, and PC
keeps its advanced value. -/
def noHandler (w pc0 : Word) (s : State) : Host.Outcome State Fault Refusal :=
  .next (takeFault (.unimplementedOpcode .noHandler w pc0) s)

/-- Store a word where memory has one; an address above MEMTOP names no word and nothing is stored. -/
def pokeInRange (a v : Word) (s : State) : State := if s.inRange a then s.poke a v else s

/-- The words of an instruction put at PC and the address after it, as a load from outside the machine does
(70_reset_and_hazards.md R135; log entry 17), in a state that may step. -/
def placeWords (w0 w1 : Word) (s : State) : State :=
  { pokeInRange s.pc w0 (pokeInRange (s.pc + 1#16) w1 s) with status := .running }

end Sys2Proof.Machine
end

