-- ==== Sys2Proof/Machine/Flags.lean ====
section
/-! DEFINITION. The wide results and the flag computations of 41_arithmetic.md and 42_logic_and_move.md. A wide result is
a mathematical integer (00_scope.md R18); narrowing to a word is explicit and last (41_arithmetic.md R142). -/

namespace Sys2Proof.Machine

/-- A flag as the number 0 or 1. -/
def flagInt (b : Bool) : Int := if b then 1 else 0

/-- SUB's wide result (R91): `v - A`, and `+ C - 1` when M = 1. -/
def subWide (a v : Word) (m c : Bool) : Int :=
  let r : Int := (v.toNat : Int) - (a.toNat : Int)
  if m then r + flagInt c - 1 else r

/-- ADD's wide result (R93): `v + A`, and `+ C` when M = 1. -/
def addWide (a v : Word) (m c : Bool) : Int :=
  let r : Int := (v.toNat : Int) + (a.toNat : Int)
  if m then r + flagInt c else r

/-- `r & 0xFFFF` (00_scope.md R18). -/
def narrow (r : Int) : Word := BitVec.ofInt 16 r

/-- `r[16]`: bit 16 of the two's-complement representation of r, which is bit 16 of `r mod 2^17` (00_scope.md R18). -/
def bit16 (r : Int) : Bool := (BitVec.ofInt 17 r).msb

/-- Z: the masked result is zero. -/
def isZero (res : Word) : Bool := res == 0#16

/-- S: bit 15 of the masked result. -/
def sign (res : Word) : Bool := res.msb

/-- SUB's V (R92): accumulator and operand differ in sign and the result has the accumulator's sign. -/
def subOverflow (a v res : Word) : Bool := a.msb != v.msb && res.msb == a.msb

/-- ADD's V (R93): accumulator and operand have one sign and the result has the other. -/
def addOverflow (a v res : Word) : Bool := a.msb == v.msb && res.msb != a.msb

/-- The flags after SUB and CMP (R92): C, Z, S and V from the wide result; I, M and F as they were. -/
def CondReg.afterSub (cr : CondReg) (a v : Word) (r : Int) : CondReg :=
  { cr with c := bit16 r, z := isZero (narrow r), s := sign (narrow r), v := subOverflow a v (narrow r) }

/-- The flags after ADD (R93): C, Z, S and V from the wide result; I, M and F as they were. -/
def CondReg.afterAdd (cr : CondReg) (a v : Word) (r : Int) : CondReg :=
  { cr with c := bit16 r, z := isZero (narrow r), s := sign (narrow r), v := addOverflow a v (narrow r) }

/-- The flags after LDA, AND and NEQ (R95, R97, R98): Z and S from the result; C, V, M, I and F as they were. -/
def CondReg.afterMove (cr : CondReg) (res : Word) : CondReg :=
  { cr with z := isZero res, s := sign res }

end Sys2Proof.Machine
end

