-- ==== Sys2Proof/Machine/Operands.lean ====
section
/-! DEFINITION. The operand resolver (40_addressing.md): every addressing mode in its two forms, Resolve (R75 to R84),
which reads the operand, and ResolveAddr (R87), which only names its address. -/

namespace Sys2Proof.Machine

/-- What full resolution returns (R75): the Resolved Operand (10_state.md R38: the value, the effective address or none,
and the cycle cost), with the mode. -/
structure Resolved where
  value : Word
  ea : Option Word
  mode : Mode
  cycles : Nat
  deriving DecidableEq, Repr

/-- What address-only resolution names (R87): an address, or in the Immediate mode the literal. -/
inductive Target where
  | addr (ea : Word)
  | literal (v : Word)
  deriving DecidableEq, Repr

/-- What address-only resolution returns (R87): the target, the mode and the cycle cost. -/
structure ResolvedTarget where
  target : Target
  mode : Mode
  cycles : Nat
  deriving DecidableEq, Repr

/-- The address of the opcode word of the instruction being executed. The controller has set PC to
`(pc0 + L(w)) mod 2^16` (44_controller.md R105), so pc0 is PC less the length (DEDUCED, log entry 10). -/
def opcodeAddr (i : Instr) (s : State) : Word := s.pc - BitVec.ofNat 16 (wordLength (encode s.cfg i))

/-- The address of the extension word, `(pc0 + 1) mod 2^16` (30_encoding.md R65). -/
def extAddr (pc0 : Word) : Word := pc0 + 1#16

/-- The 15-bit address in an extension word: bit 15 is ignored (30_encoding.md R65). -/
def extTarget (x : Word) : Word := x &&& 0x7FFF#16

/-- `PTR[P] <- (PTR[P] + 1) mod 2^16` (R79, R88). -/
def incPointer (p : BitVec 8) (s : State) : State := s.setPointer p (s.pointer p + 1#16)

/-- `PTR[P] <- (PTR[P] - 1) mod 2^16` (R80, R88). -/
def decPointer (p : BitVec 8) (s : State) : State := s.setPointer p (s.pointer p - 1#16)

/-- The end of a full resolution: `OR <- value` (R84), and what R75 returns. -/
def latch (value : Word) (ea : Option Word) (mode : Mode) (cycles : Nat) (s : State) : Part Resolved :=
  .ok ⟨value, ea, mode, cycles⟩ { s with or := value }

/-- Resolve(w, pc0) (R75): the operand's value, with the side effects of its mode in the order of R85. -/
def resolve (op : Operand) (w pc0 : Word) (s : State) : Part Resolved :=
  match op.mode s.cfg with
  | .direct n =>
    let ea := n.setWidth 16
    (memRead ea s).andThen fun v s1 => latch v (some ea) (.direct n) s.cfg.cycles.direct s1
  | .immediate =>
    (memRead (extAddr pc0) s).andThen fun v s1 => latch v none .immediate s.cfg.cycles.immediate s1
  | .ptr p =>
    let ea := s.pointer p
    (memRead ea s).andThen fun v s1 => latch v (some ea) (.ptr p) s.cfg.cycles.ptr s1
  | .ptrInc p =>
    let s1 := incPointer p s
    let ea := s1.pointer p
    (memRead ea s1).andThen fun v s2 => latch v (some ea) (.ptrInc p) s.cfg.cycles.ptrInc s2
  | .ptrDec p =>
    let ea := s.pointer p
    (memRead ea s).andThen fun v s1 => latch v (some ea) (.ptrDec p) s.cfg.cycles.ptrDec (decPointer p s1)
  | .wordDirect =>
    (memRead (extAddr pc0) s).andThen fun x s1 =>
      let ea := extTarget x
      (memRead ea s1).andThen fun v s2 => latch v (some ea) .wordDirect s.cfg.cycles.wordDirect s2
  | .reservedR => .raised (.unimplementedOpcode .reservedR w pc0) s
  | .reservedSubMode => .raised (.unimplementedOpcode .reservedSubMode w pc0) s

/-- ResolveAddr(w, pc0) (R87): the same extension-word read and pointer changes, but no operand read and no write of
OR. The result is the target, the mode and the cycle cost. -/
def resolveAddr (op : Operand) (w pc0 : Word) (s : State) : Part ResolvedTarget :=
  match op.mode s.cfg with
  | .direct n => .ok ⟨.addr (n.setWidth 16), .direct n, s.cfg.cycles.direct⟩ s
  | .immediate =>
    (memRead (extAddr pc0) s).andThen fun x s1 => .ok ⟨.literal x, .immediate, s.cfg.cycles.immediate⟩ s1
  | .ptr p => .ok ⟨.addr (s.pointer p), .ptr p, s.cfg.cycles.ptr⟩ s
  | .ptrInc p =>
    let s1 := incPointer p s
    .ok ⟨.addr (s1.pointer p), .ptrInc p, s.cfg.cycles.ptrInc⟩ s1
  | .ptrDec p => .ok ⟨.addr (s.pointer p), .ptrDec p, s.cfg.cycles.ptrDec⟩ (decPointer p s)
  | .wordDirect =>
    (memRead (extAddr pc0) s).andThen fun x s1 =>
      .ok ⟨.addr (extTarget x), .wordDirect, s.cfg.cycles.wordDirect⟩ s1
  | .reservedR => .raised (.unimplementedOpcode .reservedR w pc0) s
  | .reservedSubMode => .raised (.unimplementedOpcode .reservedSubMode w pc0) s

/-- An instruction that resolves its operand (R90), changes the state by its rule `f` from the operand's value, and
returns the mode's cycle cost. -/
def withOperand (i : Instr) (op : Operand) (f : Word → State → State) (s : State) :
    Host.Outcome State Fault Refusal :=
  ((resolve op (encode s.cfg i) (opcodeAddr i s) s).andThen fun r s1 => .ok r.cycles (f r.value s1)).finish

/-- An instruction that uses address-only resolution: its rule `f` gets the target, and the mode's cycle cost is
returned. -/
def withTarget (i : Instr) (op : Operand) (f : Target → State → Part Unit) (s : State) :
    Host.Outcome State Fault Refusal :=
  ((resolveAddr op (encode s.cfg i) (opcodeAddr i s) s).andThen fun r s1 =>
    (f r.target s1).andThen fun _ s2 => .ok r.cycles s2).finish

end Sys2Proof.Machine
end

