-- ==== Sys2Proof/Machine/Arithmetic.lean ====
section
/-! DEFINITION. The arithmetic instructions SUB, ADD and CMP (41_arithmetic.md). -/

namespace Sys2Proof.Machine

/-- SUB's effect on an operand value (R91, R92): the accumulator is the subtrahend, the operand the minuend
(90_conflicts.md C3 and C4; log entry 15). -/
def subEffect (v : Word) (s : State) : State :=
  let r := subWide s.acc v s.cr.m s.cr.c
  { s with acc := narrow r, cr := s.cr.afterSub s.acc v r }

/-- ADD's effect on an operand value (R93, the spec's decision D14; log entry 14). -/
def addEffect (v : Word) (s : State) : State :=
  let r := addWide s.acc v s.cr.m s.cr.c
  { s with acc := narrow r, cr := s.cr.afterAdd s.acc v r }

/-- CMP's effect on an operand value (R94, the spec's decision D14; log entry 14): SUB's flags, and ACC is not written. -/
def cmpEffect (v : Word) (s : State) : State :=
  { s with cr := s.cr.afterSub s.acc v (subWide s.acc v s.cr.m s.cr.c) }

/-- SUB (R91, R92). -/
def execSub (op : Operand) (s : State) : Host.Outcome State Fault Refusal :=
  withOperand (.sub op) op subEffect s

/-- ADD (R93). -/
def execAdd (op : Operand) (s : State) : Host.Outcome State Fault Refusal :=
  withOperand (.add op) op addEffect s

/-- CMP (R94). -/
def execCmp (op : Operand) (s : State) : Host.Outcome State Fault Refusal :=
  withOperand (.cmp op) op cmpEffect s

end Sys2Proof.Machine
end

