-- ==== Sys2Proof/Machine/Control.lean ====
section
/-! DEFINITION. Halt and control transfer: HALT and JMP (43_control.md). -/

namespace Sys2Proof.Machine

/-- HALT (R99): STATUS <- Halted, with no operand resolution and no memory access; the ignored bits `_k` have no
effect. PC keeps the value the controller advanced it to. -/
def execHalt (_k : Word) (s : State) : Host.Outcome State Fault Refusal := .next (takeHalt s)

/-- JMP's effect on its target (R100, the spec's decision D14; log entry 14): the address, or in the Immediate mode the
literal, becomes PC, with no range check. -/
def jmpEffect (t : Target) (s : State) : Part Unit :=
  match t with
  | .addr ea => .ok () { s with pc := ea }
  | .literal v => .ok () { s with pc := v }

/-- JMP (R100). -/
def execJmp (op : Operand) (s : State) : Host.Outcome State Fault Refusal :=
  withTarget (.jmp op) op jmpEffect s

end Sys2Proof.Machine
end

