-- ==== Sys2Proof/Machine/MoveLogic.lean ====
section
/-! DEFINITION. The move, store and logical instructions LDA, STO, AND and NEQ (42_logic_and_move.md), all the spec's
decision D14 (log entry 14). -/

namespace Sys2Proof.Machine

/-- A result goes to ACC and sets Z and S (R95, R97, R98). -/
def setAccZS (res : Word) (s : State) : State := { s with acc := res, cr := s.cr.afterMove res }

/-- LDA's effect (R95): ACC <- v. -/
def ldaEffect (v : Word) (s : State) : State := setAccZS v s

/-- AND's effect (R97): ACC <- ACC & v. -/
def andEffect (v : Word) (s : State) : State := setAccZS (s.acc &&& v) s

/-- NEQ's effect (R98): ACC <- ACC ^ v. -/
def neqEffect (v : Word) (s : State) : State := setAccZS (s.acc ^^^ v) s

/-- STO's effect on its target (R96): the literal of the Immediate mode has no effective address; an address is written
with ACC. -/
def stoEffect (w pc0 : Word) (t : Target) (s : State) : Part Unit :=
  match t with
  | .literal _ => .raised (.unimplementedOpcode .noEffectiveAddress w pc0) s
  | .addr ea => memWrite ea s.acc.toNat s

/-- LDA (R95). -/
def execLda (op : Operand) (s : State) : Host.Outcome State Fault Refusal :=
  withOperand (.lda op) op ldaEffect s

/-- STO (R96). -/
def execSto (op : Operand) (s : State) : Host.Outcome State Fault Refusal :=
  withTarget (.sto op) op (stoEffect (encode s.cfg (.sto op)) (opcodeAddr (.sto op) s)) s

/-- AND (R97). -/
def execAnd (op : Operand) (s : State) : Host.Outcome State Fault Refusal :=
  withOperand (.and op) op andEffect s

/-- NEQ (R98). -/
def execNeq (op : Operand) (s : State) : Host.Outcome State Fault Refusal :=
  withOperand (.neq op) op neqEffect s

end Sys2Proof.Machine
end

