-- ==== Sys2Proof/Machine/Dispatch.lean ====
section
/-! DEFINITION. The handler table of the controller (44_controller.md R106, R107): one arm per instruction. -/

namespace Sys2Proof.Machine

def exec (i : Instr) (s : State) : Host.Outcome State Fault Refusal :=
  match i with
  | .sub op => Sys2Proof.Machine.execSub op s
  | .halt k => Sys2Proof.Machine.execHalt k s
  | .lda op => Sys2Proof.Machine.execLda op s
  | .sto op => Sys2Proof.Machine.execSto op s
  | .add op => Sys2Proof.Machine.execAdd op s
  | .cmp op => Sys2Proof.Machine.execCmp op s
  | .and op => Sys2Proof.Machine.execAnd op s
  | .neq op => Sys2Proof.Machine.execNeq op s
  | .jmp op => Sys2Proof.Machine.execJmp op s

end Sys2Proof.Machine
end

