-- ==== Sys2Proof/Machine/Step.lean ====
section
/-! DEFINITION. One `single_step` (44_controller.md R102), and how an instruction is put where a step fetches it. -/

namespace Sys2Proof.Machine

/-- single_step() (R102): it has a meaning only when STATUS is Running (R103); then fetch and PC advance (R104, R105),
dispatch (R106), and the handler (R107). A raise in the fetch is a fault of the step (R109). -/
def step (s : State) : Host.Outcome State Fault Refusal :=
  match s.status with
  | .halted => .fault .steppedWhileHalted
  | .faulted _ => .fault .steppedWhileFaulted
  | .running =>
    match fetch s with
    | .raised f s1 => .next (takeFault f s1)
    | .ok w s1 =>
      match decode s.cfg w with
      | .noHandler => noHandler w s.pc s1
      | .instr i => exec i s1

/-- The state with the instruction whose bits are `w` stored where the next step fetches: its first word at PC and its
second word at the address after it. STATUS is set to Running, which the fetch needs (R103; log entry 17). -/
def State.withFetchWord (s : State) (nbits w : Nat) : State :=
  placeWords (tableWord nbits w 0) (tableWord nbits w 1) s

end Sys2Proof.Machine
end

