-- ==== Sys2Proof/Machine/Driver.lean ====
section
/-! DEFINITION. The block's host interface (44_controller.md R115): what the driver outside the block may do to the core,
between steps only (R113). `none` is a move the driver does not have. -/

namespace Sys2Proof.Machine

/-- The seven flags by name (10_state.md R26). -/
inductive FlagName where
  | i
  | z
  | v
  | s
  | c
  | m
  | f
  deriving DecidableEq, Repr

/-- The transactions of R115. -/
inductive Driver.Action where
  /-- A memory image and the pointer-file contents become MEM and PTR, at any time between steps (log entry 20). -/
  | load (image : List (Word × Word)) (pointers : Vector Word 256)
  | reset
  | singleStep
  | setAcc (v : Word)
  | setOr (v : Word)
  | setPc (v : Word)
  | setFlag (flag : FlagName) (b : Bool)
  | setPointer (p : BitVec 8) (v : Word)
  | setMem (a v : Word)
  | attachTracer
  | observe
  /-- The host calls `single_step` no more (R116): nothing happens in the core. -/
  | stop
  deriving DecidableEq, Repr

/-- One flag set to 0 or 1 ("direct get/set of each register and flag", R115). -/
def CondReg.setFlag (cr : CondReg) (flag : FlagName) (b : Bool) : CondReg :=
  match flag with
  | .i => { cr with i := b }
  | .z => { cr with z := b }
  | .v => { cr with v := b }
  | .s => { cr with s := b }
  | .c => { cr with c := b }
  | .m => { cr with m := b }
  | .f => { cr with f := b }

/-- The memory of a loaded image: SENTINEL in every word the image does not give (20_memory.md R52). Of two entries for
one address the later stands. -/
def imageMem (sentinel : Word) (image : List (Word × Word)) : Mem :=
  image.foldl (fun m e => Memory.set sentinel m e.1.toNat e.2) []

/-- The loader's move (R115, R61): MEM becomes the image and PTR the given contents, and nothing else changes. An image
with an address above MEMTOP is no image of this memory (log entry 16). The boot order puts the load before the first
reset (R61, R135), while R115 lists it among the transactions between steps: that it is a move in any STATUS, also after a
reset and in mid-run, is the model's choice (DESIGN CHOICE, log entry 20). -/
def loadImage (image : List (Word × Word)) (pointers : Vector Word 256) (s : State) : Option State :=
  if image.all fun e => s.inRange e.1 then
    some { s with mem := imageMem s.cfg.sentinel image, ptr := pointers }
  else none

/-- The host sets a memory word (R115), which exists only in range; the host's own write is not traced (log entries 8 and
16). -/
def setMemWord (a v : Word) (s : State) : Option State :=
  if s.inRange a then some (s.poke a v) else none

/-- `single_step` as the host calls it: only when STATUS is Running (R103); what the step reported stands in `result`. -/
def stepMove (s : State) : Option State :=
  match step s with
  | .next t => some t
  | .fault _ => none
  | .refused _ => none

/-- The effect of one transaction of R115. -/
def Driver.apply (a : Driver.Action) (s : State) : Option State :=
  match a with
  | .load image pointers => loadImage image pointers s
  | .reset => some (resetOp s)
  | .singleStep => stepMove s
  | .setAcc v => some { s with acc := v }
  | .setOr v => some { s with or := v }
  | .setPc v => some { s with pc := v }
  | .setFlag flag b => some { s with cr := s.cr.setFlag flag b }
  | .setPointer p v => some (s.setPointer p v)
  | .setMem a v => setMemWord a v s
  | .attachTracer => some { s with tracer := some [] }
  | .observe => some s
  | .stop => some s

/-- A session: one transaction after another (20_memory.md R60). -/
def Driver.session : List Driver.Action → State → Option State
  | [], s => some s
  | a :: rest, s => (Driver.apply a s).bind (Driver.session rest)

end Sys2Proof.Machine
end

