-- ==== Sys2Proof/Safety.lean ====
section
/-! DEFINITION. The terms in which claims about the machine are stated: the invariant, what counts as a safe run, and the
operand of an instruction as the rules of 40_addressing.md give it, written as plain formulas over a state and not by the
resolver's own code. -/

namespace Sys2Proof.Machine

/-! ### Invariant and safe runs -/

/-- The state invariant: memory is in its canonical form, within [0, MEMTOP]. The other invariants of 10_state.md R40 hold
by the types of the fields. -/
def State.Inv (s : State) : Prop := Memory.wf s.cfg.sentinel s.cfg.memTop.toNat s.mem = true

/-- STATUS is not Faulted: the core runs or has halted normally (60_exceptions.md R120). -/
def State.unfaulted (s : State) : Prop := ∀ f, s.status ≠ .faulted f

/-- A run of up to `k` steps in which no fault is ever raised. -/
def SafeFor : Nat → State → Prop
  | 0, s => s.unfaulted
  | k + 1, s => s.unfaulted ∧ ∀ t, step s = .next t → SafeFor k t

/-! ### The operand of an instruction, by formulas -/

/-- The extension word of the instruction whose opcode word is at `pc0` (30_encoding.md R65). -/
def extWord (pc0 : Word) (s : State) : Word := s.peek (pc0 + 1#16)

/-- The modes that have an extension word (R65). -/
def usesExt (op : Operand) (s : State) : Bool :=
  match op.mode s.cfg with
  | .immediate | .wordDirect => true
  | .direct _ | .ptr _ | .ptrInc _ | .ptrDec _ | .reservedR | .reservedSubMode => false

/-- The modes in which the operand's encoding is one that executes (R71). -/
def notReserved (op : Operand) (s : State) : Bool :=
  match op.mode s.cfg with
  | .reservedR | .reservedSubMode => false
  | .direct _ | .immediate | .ptr _ | .ptrInc _ | .ptrDec _ | .wordDirect => true

/-- The effective address (40_addressing.md R76 to R81); the Immediate mode has none. -/
def operandAddr (op : Operand) (pc0 : Word) (s : State) : Option Word :=
  match op.mode s.cfg with
  | .direct n => some (n.setWidth 16)
  | .ptr p | .ptrDec p => some (s.pointer p)
  | .ptrInc p => some (s.pointer p + 1#16)
  | .wordDirect => some (extWord pc0 s &&& 0x7FFF#16)
  | .immediate | .reservedR | .reservedSubMode => none

/-- The operand's value: the word at the effective address, or the literal (R76 to R81). -/
def operandValue (op : Operand) (pc0 : Word) (s : State) : Word :=
  match operandAddr op pc0 s with
  | some a => s.peek a
  | none => extWord pc0 s

/-- The pointer file after the operand's mode has run (R79, R80, R87). -/
def pointersAfter (op : Operand) (s : State) : Vector Word 256 :=
  match op.mode s.cfg with
  | .ptrInc p => s.ptr.set p.toNat (s.pointer p + 1#16)
  | .ptrDec p => s.ptr.set p.toNat (s.pointer p - 1#16)
  | .direct _ | .immediate | .ptr _ | .wordDirect | .reservedR | .reservedSubMode => s.ptr

/-- CYCLES(mode) (R86); 0 stands for the reserved modes, which return no cost. -/
def modeCycles (op : Operand) (s : State) : Nat :=
  match op.mode s.cfg with
  | .direct _ => s.cfg.cycles.direct
  | .immediate => s.cfg.cycles.immediate
  | .ptr _ => s.cfg.cycles.ptr
  | .ptrInc _ => s.cfg.cycles.ptrInc
  | .ptrDec _ => s.cfg.cycles.ptrDec
  | .wordDirect => s.cfg.cycles.wordDirect
  | .reservedR | .reservedSubMode => 0

/-- A state whose tracer, if one is attached, has been given more events, the latest first (20_memory.md R50). -/
def State.traced (s : State) (events : List TraceEvent) : State :=
  { s with tracer := s.tracer.map (events ++ ·) }

/-- The event of reading a word. -/
def readEvent (s : State) (a : Word) : TraceEvent := ⟨.read, a, s.peek a⟩

/-- The events of the extension-word read, if there is one. -/
def extEvents (op : Operand) (pc0 : Word) (s : State) : List TraceEvent :=
  if usesExt op s then [readEvent s (pc0 + 1#16)] else []

/-- The event of the operand read, if there is one. -/
def operandEvents (op : Operand) (pc0 : Word) (s : State) : List TraceEvent :=
  match operandAddr op pc0 s with
  | some a => [readEvent s a]
  | none => []

/-- Address-only resolution can finish: the encoding is not reserved, and an extension word lies in memory (R87). -/
def targetReady (op : Operand) (pc0 : Word) (s : State) : Bool :=
  notReserved op s && (!usesExt op s || s.inRange (pc0 + 1#16))

/-- Full resolution can finish: moreover the effective address, if there is one, lies in memory (R76 to R81). -/
def operandReady (op : Operand) (pc0 : Word) (s : State) : Bool :=
  targetReady op pc0 s &&
  match operandAddr op pc0 s with
  | some a => s.inRange a
  | none => true

/-- The state after full resolution: the pointer file of the mode, `OR <- value`, and the reads in the trace (R84, R85). -/
def afterResolve (op : Operand) (pc0 : Word) (s : State) : State :=
  { s with ptr := pointersAfter op s, or := operandValue op pc0 s }.traced
    (operandEvents op pc0 s ++ extEvents op pc0 s)

/-- The state after address-only resolution (R87): no operand read and no write of OR. -/
def afterResolveAddr (op : Operand) (pc0 : Word) (s : State) : State :=
  { s with ptr := pointersAfter op s }.traced (extEvents op pc0 s)

/-- The fault of address-only resolution that cannot finish (R82, R83, R87; 60_exceptions.md R121, R122): a reserved
encoding, else the extension word out of range. -/
def targetFault (op : Operand) (w pc0 : Word) (s : State) : CoreFault :=
  match op.mode s.cfg with
  | .reservedR => .unimplementedOpcode .reservedR w pc0
  | .reservedSubMode => .unimplementedOpcode .reservedSubMode w pc0
  | .direct _ | .immediate | .ptr _ | .ptrInc _ | .ptrDec _ | .wordDirect => .addressRange (pc0 + 1#16)

/-- The fault of full resolution that cannot finish, the first in the order of accesses (R122): as above, else the
effective address out of range. -/
def operandFault (op : Operand) (w pc0 : Word) (s : State) : CoreFault :=
  if targetReady op pc0 s then
    match operandAddr op pc0 s with
    | some a => .addressRange a
    | none => targetFault op w pc0 s
  else targetFault op w pc0 s

/-- The state in which full resolution that cannot finish is left (R89): an increment that came first stays, a decrement
has not happened, OR is as before, and an extension word that was read is in the trace. -/
def afterRaise (op : Operand) (pc0 : Word) (s : State) : State :=
  match op.mode s.cfg with
  | .ptrInc p => { s with ptr := s.ptr.set p.toNat (s.pointer p + 1#16) }
  | .wordDirect => if s.inRange (pc0 + 1#16) then s.traced [readEvent s (pc0 + 1#16)] else s
  | .direct _ | .immediate | .ptr _ | .ptrDec _ | .reservedR | .reservedSubMode => s

/-- The state at dispatch: the opcode word has been read and PC advanced by L(w) (44_controller.md R104, R105). -/
def atDispatch (s : State) : State :=
  { s with pc := s.pc + BitVec.ofNat 16 (wordLength (s.peek s.pc)) }.traced [readEvent s s.pc]

/-- The state is one in which instruction `i`, fetched at `pc0`, is being executed: the controller has advanced PC past
it (44_controller.md R105). -/
def ExecutingAt (i : Instr) (pc0 : Word) (s : State) : Prop :=
  s.pc = pc0 + BitVec.ofNat 16 (wordLength (encode s.cfg i))

end Sys2Proof.Machine
end

