-- ==== Sys2Proof/Certificates/Slice0/Obligations.lean ====
section
/-! DEFINITION. The statements for the provers. Each docstring names the rules of spec/ it rests on. A clause that rests on
a choice the spec marks as its own ("decision D<n>", "derived", "from general knowledge") or on an entry of the model's log
says so. In every statement `s` is any state, with any parameters, pointers and memory. -/

open Sys2Proof Sys2Proof.Machine

/-! ### Reset and the invariant -/

/-- Reset (70_reset_and_hazards.md R132): ACC, OR and the seven flags are 0 and PC is ENTRY. That STATUS is Running
afterwards is the spec's decision D18. -/
def Obligations.ResetSetsTheRegisters : Prop :=
  ∀ s : State,
    (resetOp s).acc = 0#16 ∧ (resetOp s).or = 0#16 ∧ (resetOp s).pc = s.cfg.entry ∧ (resetOp s).status = .running ∧
    (resetOp s).cr = { i := false, z := false, v := false, s := false, c := false, m := false, f := false }

/-- Reset changes nothing else (R133): every word of memory and every pointer register keeps its contents. That the
parameters stay (log entry 1) and that reset keeps an attached tracer with its history (log entry 8) are the model's
choices. -/
def Obligations.ResetKeepsMemoryAndPointers : Prop :=
  ∀ s : State,
    (∀ a, (resetOp s).peek a = s.peek a) ∧ (resetOp s).mem = s.mem ∧ (∀ p, (resetOp s).pointer p = s.pointer p) ∧
    (resetOp s).ptr = s.ptr ∧ (resetOp s).cfg = s.cfg ∧ (resetOp s).tracer = s.tracer

/-- The machine right after reset meets the invariant, and the reset operation leaves it as it is. The pointer values,
SENTINEL and the profile in `State.reset` are the model's choices (log entries 2, 3, 5); the statement holds of the state
as a whole and needs none of their values. -/
def Obligations.ResetStateMeetsTheInvariant : Prop :=
  State.reset.Inv ∧ resetOp State.reset = State.reset

/-- The default parameters keep the HALT pattern and the function codes apart ("with the defaults they do not overlap",
30_encoding.md R69). The numbers are general knowledge (R15, R16; log entry 12). -/
def Obligations.DefaultEncodingsAreApart : Prop :=
  Config.specDefault.wf = true ∧ Config.model.wf = true

/-- Every step keeps memory in its canonical form: addresses strictly rising within [0, MEMTOP], no listed word equal to
SENTINEL. -/
def Obligations.StepKeepsTheInvariant : Prop :=
  ∀ s t : State, s.Inv → step s = .next t → t.Inv

/-- Every transaction of the host interface (44_controller.md R115), the step among them, keeps the invariant and the
parameters (R112: they are fixed for a run). A load may come at any time (log entry 20). -/
def Obligations.TransactionsKeepTheInvariant : Prop :=
  ∀ (a : Driver.Action) (s t : State), s.Inv → Driver.apply a s = some t → t.Inv ∧ t.cfg = s.cfg

/-! ### Encoding -/

/-- Decoding an encoded well-formed instruction gives it back, with every operand field at every value, under every
configuration whose encodings are apart. -/
def Obligations.EncodeThenDecode : Prop :=
  ∀ (cfg : Config) (i : Instr), cfg.wf = true → i.wf cfg = true → decode cfg (encode cfg i) = .instr i

/-- Encoding a decoded word gives the word back: decoding drops no bit, under every configuration at all; and what is
decoded is well formed. -/
def Obligations.DecodeThenEncode : Prop :=
  ∀ (cfg : Config) (w : Word) (i : Instr), decode cfg w = .instr i → encode cfg i = w ∧ i.wf cfg = true

/-- Words written out in 30_encoding.md R73 and 95_test_vectors.md, under the spec's defaults, decode to the instructions
they stand for. The numbers are general knowledge (log entry 12). -/
def Obligations.SpecWordsDecode : Prop :=
  decode Config.specDefault 0xA803#16 = .instr (.sub (.formatB false 0#2 3#8)) ∧
  decode Config.specDefault 0xA903#16 = .instr (.sub (.formatB false 1#2 3#8)) ∧
  decode Config.specDefault 0xAA03#16 = .instr (.sub (.formatB false 2#2 3#8)) ∧
  decode Config.specDefault 0xA000#16 = .instr (.sub (.formatA 0#11)) ∧
  decode Config.specDefault 0xA100#16 = .instr (.sub (.formatA 0x100#11)) ∧
  decode Config.specDefault 0x07FF#16 = .instr (.halt 0x3FF#16) ∧
  decode Config.specDefault 0x8000#16 = .noHandler ∧
  decode Config.model 0x8000#16 = .instr (.lda (.formatA 0#11)) ∧
  decode Config.model 0x4020#16 = .instr (.sto (.formatA 0x20#11)) ∧
  decode Config.model 0xF903#16 = .instr (.jmp (.formatB false 1#2 3#8)) ∧
  decode Config.model 0x1000#16 = .noHandler

/-- The operand fields that the notation of R73 writes select the mode they were written for, and within the ranges of
R74 the notation can write every mode that SUBMODE_MAP has a sub-mode for. The notation is the spec's decision D26. -/
def Obligations.NotationSelectsItsMode : Prop :=
  ∀ (cfg : Config) (m : Mode),
    (∀ op, m.toOperand cfg = some op → op.mode cfg = m) ∧
    (∀ op : Operand, op.mode cfg = m → m.wf = true → ∃ op', m.toOperand cfg = some op')

/-- L(w) (30_encoding.md R67): two words for the Immediate and WordDirect modes, one for the other modes that execute;
and L depends on nothing of the word but I and N, or I and P: not on the function code, R or SM. That it applies to every
word is the spec's decision D16. -/
def Obligations.LengthComesFromTheMode : Prop :=
  (∀ (cfg : Config) (i : Instr) (op : Operand), i.operand? = some op → op.mode cfg ≠ .reservedR →
    wordLength (encode cfg i) = if op.mode cfg = .immediate ∨ op.mode cfg = .wordDirect then 2 else 1) ∧
  (∀ w w' : Word, w.getLsbD 11 = w'.getLsbD 11 →
    (w.getLsbD 11 = false → w.extractLsb' 0 11 = w'.extractLsb' 0 11) →
    (w.getLsbD 11 = true → w.extractLsb' 0 8 = w'.extractLsb' 0 8) → wordLength w = wordLength w')

/-- SUB and HALT are selected alike in both profiles (95_test_vectors.md P6, derived from R69 and R70): an instruction of
the Core profile is the same instruction under Provisional, and every other word of Provisional has no handler in Core. -/
def Obligations.ProfilesAgreeOnCoreInstructions : Prop :=
  ∀ (cfg : Config) (w : Word), cfg.wf = true →
    (∀ i, decode { cfg with profile := .core } w = .instr i ↔
      decode { cfg with profile := .provisional } w = .instr i ∧ Profile.core.admits i = true)

/-! ### Memory -/

/-- MemRead (20_memory.md R43): the range test first; in range the word, traced when a tracer is attached; out of range
AddressRangeFault naming the address, nothing changes, and the rest of the instruction does not run. -/
def Obligations.MemoryReadRule : Prop :=
  ∀ (a : Word) (s : State),
    (a.toNat ≤ s.cfg.memTop.toNat →
      memRead a s = .ok (s.peek a) { s with tracer := s.tracer.map (⟨.read, a, s.peek a⟩ :: ·) }) ∧
    (s.cfg.memTop.toNat < a.toNat →
      memRead a s = .raised (.addressRange a) s ∧
      ∀ rest : Word → State → Sys2Proof.Machine.Part Nat, (memRead a s).andThen rest = .raised (.addressRange a) s)

/-- MemWrite (20_memory.md R44): in range `v & 0xFFFF` is stored and traced and no other word changes; out of range
AddressRangeFault naming the address, and nothing changes. Under the Core profile no step writes memory; under Provisional
only STO does. -/
def Obligations.MemoryWriteRule : Prop :=
  (∀ (a : Word) (v : Int) (s : State), s.Inv → a.toNat ≤ s.cfg.memTop.toNat →
    ∃ t, memWrite a v s = .ok () t ∧ ((t.peek a).toNat : Int) = v % 65536 ∧ (∀ b, b ≠ a → t.peek b = s.peek b) ∧
      t.tracer = s.tracer.map (⟨.write, a, t.peek a⟩ :: ·) ∧ { t with mem := s.mem, tracer := s.tracer } = s) ∧
  (∀ (a : Word) (v : Int) (s : State), s.cfg.memTop.toNat < a.toNat → memWrite a v s = .raised (.addressRange a) s) ∧
  (∀ s t : State, step s = .next t → t.mem ≠ s.mem →
    s.cfg.profile = .provisional ∧ ∃ op, decode s.cfg (s.peek s.pc) = .instr (.sto op))

/-- A read after a write (20_memory.md R45, derived there): the written address gives the masked value, every other
address what it gave before; and outside [0, MEMTOP] both accesses raise AddressRangeFault. -/
def Obligations.ReadAfterWrite : Prop :=
  ∀ (a b : Word) (v : Int) (s : State), s.Inv →
    (∀ t, memWrite a v s = .ok () t → b.toNat ≤ s.cfg.memTop.toNat →
      ∃ u, memRead b t = .ok (if b = a then BitVec.ofInt 16 v else s.peek b) u) ∧
    (s.cfg.memTop.toNat < a.toNat →
      memRead a s = .raised (.addressRange a) s ∧ memWrite a v s = .raised (.addressRange a) s)

/-- A store is seen by the next fetch of its address (20_memory.md R58, derived there). -/
def Obligations.StoreIsSeenByTheNextFetch : Prop :=
  ∀ (v : Int) (s t : State), s.Inv → memWrite s.pc v s = .ok () t →
    ∃ u, fetch t = .ok (BitVec.ofInt 16 v) u ∧ u.pc = s.pc + BitVec.ofNat 16 (wordLength (BitVec.ofInt 16 v))

/-! ### The operand resolver -/

/-- Direct (40_addressing.md R76), Format A with N ≠ 0: ea is N, zero-extended; OR gets the word there; no pointer
changes; one word long; AddressRangeFault(N) when N > MEMTOP. -/
def Obligations.DirectOperand : Prop :=
  ∀ (n : BitVec 11) (f : BitVec 4) (w pc0 : Word) (s : State), n ≠ 0#11 →
    wordLength (encodeFields f (.formatA n)) = 1 ∧ (encodeFields f (.formatA n)).getLsbD 11 = false ∧
    decodeOperand (encodeFields f (.formatA n)) = .formatA n ∧
    (n.toNat ≤ s.cfg.memTop.toNat →
      resolve (.formatA n) w pc0 s =
        .ok ⟨s.peek (BitVec.ofNat 16 n.toNat), some (BitVec.ofNat 16 n.toNat), .direct n, s.cfg.cycles.direct⟩
          ({ s with or := s.peek (BitVec.ofNat 16 n.toNat) }.traced [readEvent s (BitVec.ofNat 16 n.toNat)])) ∧
    (s.cfg.memTop.toNat < n.toNat →
      resolve (.formatA n) w pc0 s = .raised (.addressRange (BitVec.ofNat 16 n.toNat)) s)

/-- Immediate (40_addressing.md R77): the literal is the extension word, all 16 bits; there is no effective address; OR
gets it; two words long; AddressRangeFault when it lies above MEMTOP. The wrap of `pc0 + 1` is the spec's decision D15. -/
def Obligations.ImmediateOperand : Prop :=
  ∀ (f : BitVec 4) (w pc0 : Word) (s : State),
    wordLength (encodeFields f (.formatA 0#11)) = 2 ∧
    ((pc0 + 1#16).toNat ≤ s.cfg.memTop.toNat →
      resolve (.formatA 0#11) w pc0 s =
        .ok ⟨s.peek (pc0 + 1#16), none, .immediate, s.cfg.cycles.immediate⟩
          ({ s with or := s.peek (pc0 + 1#16) }.traced [readEvent s (pc0 + 1#16)])) ∧
    (s.cfg.memTop.toNat < (pc0 + 1#16).toNat →
      resolve (.formatA 0#11) w pc0 s = .raised (.addressRange (pc0 + 1#16)) s)

/-- `/P` (40_addressing.md R78): ea is PTR[P]; OR gets the word there; no pointer changes; one word long;
AddressRangeFault(PTR[P]) when PTR[P] > MEMTOP. -/
def Obligations.PointerOperand : Prop :=
  ∀ (r : Bool) (sm : BitVec 2) (p : BitVec 8) (f : BitVec 4) (w pc0 : Word) (s : State),
    (r = true → s.cfg.rPolicy = .ignore) → p ≠ 0#8 → s.cfg.subModes.get sm = .ptr →
    wordLength (encodeFields f (.formatB r sm p)) = 1 ∧
    ((s.pointer p).toNat ≤ s.cfg.memTop.toNat →
      resolve (.formatB r sm p) w pc0 s =
        .ok ⟨s.peek (s.pointer p), some (s.pointer p), .ptr p, s.cfg.cycles.ptr⟩
          ({ s with or := s.peek (s.pointer p) }.traced [readEvent s (s.pointer p)])) ∧
    (s.cfg.memTop.toNat < (s.pointer p).toNat →
      resolve (.formatB r sm p) w pc0 s = .raised (.addressRange (s.pointer p)) s)

/-- `/P+` (40_addressing.md R79): PTR[P] is incremented first and the operand read at the new value; when that is above
MEMTOP the fault names the new value and the increment stays (decision D17). The wrap at 0xFFFF is decision D7. -/
def Obligations.PointerIncrementComesFirst : Prop :=
  ∀ (r : Bool) (sm : BitVec 2) (p : BitVec 8) (f : BitVec 4) (w pc0 : Word) (s : State),
    (r = true → s.cfg.rPolicy = .ignore) → p ≠ 0#8 → s.cfg.subModes.get sm = .ptrInc →
    let ea := BitVec.ofNat 16 ((s.pointer p).toNat + 1)
    wordLength (encodeFields f (.formatB r sm p)) = 1 ∧
    (ea.toNat ≤ s.cfg.memTop.toNat →
      resolve (.formatB r sm p) w pc0 s =
        .ok ⟨s.peek ea, some ea, .ptrInc p, s.cfg.cycles.ptrInc⟩
          ({ s with or := s.peek ea, ptr := s.ptr.set p.toNat ea }.traced [readEvent s ea])) ∧
    (s.cfg.memTop.toNat < ea.toNat →
      resolve (.formatB r sm p) w pc0 s = .raised (.addressRange ea) { s with ptr := s.ptr.set p.toNat ea })

/-- `/P-` (40_addressing.md R80): the operand is read at the current pointer value and PTR[P] is decremented afterwards;
when the value is above MEMTOP the fault comes first and the pointer is as before. The wrap at 0 is decision D7. -/
def Obligations.PointerDecrementComesLast : Prop :=
  ∀ (r : Bool) (sm : BitVec 2) (p : BitVec 8) (f : BitVec 4) (w pc0 : Word) (s : State),
    (r = true → s.cfg.rPolicy = .ignore) → p ≠ 0#8 → s.cfg.subModes.get sm = .ptrDec →
    let ea := s.pointer p
    wordLength (encodeFields f (.formatB r sm p)) = 1 ∧
    (ea.toNat ≤ s.cfg.memTop.toNat →
      resolve (.formatB r sm p) w pc0 s =
        .ok ⟨s.peek ea, some ea, .ptrDec p, s.cfg.cycles.ptrDec⟩
          ({ s with or := s.peek ea, ptr := s.ptr.set p.toNat (BitVec.ofNat 16 (ea.toNat + 65535)) }.traced
            [readEvent s ea])) ∧
    (s.cfg.memTop.toNat < ea.toNat → resolve (.formatB r sm p) w pc0 s = .raised (.addressRange ea) s)

/-- `.W` (40_addressing.md R81): with P = 0 and any SM, ea is the low 15 bits of the extension word, and OR gets the word
there; no pointer changes; two words long; AddressRangeFault at the extension word or at ea. That SM is ignored is the
spec's decision D9, the wrap of `pc0 + 1` decision D15. -/
def Obligations.WordDirectOperand : Prop :=
  ∀ (r : Bool) (sm : BitVec 2) (f : BitVec 4) (w pc0 : Word) (s : State), (r = true → s.cfg.rPolicy = .ignore) →
    let x := s.peek (pc0 + 1#16)
    let ea := BitVec.ofNat 16 (x.toNat % 32768)
    wordLength (encodeFields f (.formatB r sm 0#8)) = 2 ∧
    ((pc0 + 1#16).toNat ≤ s.cfg.memTop.toNat → ea.toNat ≤ s.cfg.memTop.toNat →
      resolve (.formatB r sm 0#8) w pc0 s =
        .ok ⟨s.peek ea, some ea, .wordDirect, s.cfg.cycles.wordDirect⟩
          ({ s with or := s.peek ea }.traced [readEvent s ea, readEvent s (pc0 + 1#16)])) ∧
    ((pc0 + 1#16).toNat ≤ s.cfg.memTop.toNat → s.cfg.memTop.toNat < ea.toNat →
      resolve (.formatB r sm 0#8) w pc0 s = .raised (.addressRange ea) (s.traced [readEvent s (pc0 + 1#16)])) ∧
    (s.cfg.memTop.toNat < (pc0 + 1#16).toNat →
      resolve (.formatB r sm 0#8) w pc0 s = .raised (.addressRange (pc0 + 1#16)) s)

/-- The reserved bit and the reserved sub-mode (40_addressing.md R82, R83; decisions D10, D8): under R_POLICY = Fault a word
with R = 1 raises ReservedR, and a sub-mode that SUBMODE_MAP reserves raises ReservedSubMode, in both resolutions, before
any memory or pointer access; under R_POLICY = Ignore the bit R makes no difference. -/
def Obligations.ReservedEncodingsFault : Prop :=
  ∀ (r : Bool) (sm : BitVec 2) (p : BitVec 8) (w pc0 : Word) (s : State),
    (s.cfg.rPolicy = .fault →
      resolve (.formatB true sm p) w pc0 s = .raised (.unimplementedOpcode .reservedR w pc0) s ∧
      resolveAddr (.formatB true sm p) w pc0 s = .raised (.unimplementedOpcode .reservedR w pc0) s) ∧
    ((r = true → s.cfg.rPolicy = .ignore) → p ≠ 0#8 → s.cfg.subModes.get sm = .reserved →
      resolve (.formatB r sm p) w pc0 s = .raised (.unimplementedOpcode .reservedSubMode w pc0) s ∧
      resolveAddr (.formatB r sm p) w pc0 s = .raised (.unimplementedOpcode .reservedSubMode w pc0) s) ∧
    (s.cfg.rPolicy = .ignore →
      resolve (.formatB true sm p) w pc0 s = resolve (.formatB false sm p) w pc0 s ∧
      resolveAddr (.formatB true sm p) w pc0 s = resolveAddr (.formatB false sm p) w pc0 s)

/-- Address-only resolution (40_addressing.md R87, the spec's decisions D14 and D25): the same extension-word read and
pointer changes, no operand read, no write of OR, and no range check of the address it names. -/
def Obligations.AddressOnlyResolution : Prop :=
  ∀ (op : Operand) (w pc0 : Word) (s : State),
    (∀ n, op.mode s.cfg = .direct n →
      resolveAddr op w pc0 s = .ok ⟨.addr (BitVec.ofNat 16 n.toNat), .direct n, s.cfg.cycles.direct⟩ s) ∧
    (∀ p, op.mode s.cfg = .ptr p →
      resolveAddr op w pc0 s = .ok ⟨.addr (s.pointer p), .ptr p, s.cfg.cycles.ptr⟩ s) ∧
    (∀ p, op.mode s.cfg = .ptrInc p →
      resolveAddr op w pc0 s =
        .ok ⟨.addr (s.pointer p + 1#16), .ptrInc p, s.cfg.cycles.ptrInc⟩ (s.setPointer p (s.pointer p + 1#16))) ∧
    (∀ p, op.mode s.cfg = .ptrDec p →
      resolveAddr op w pc0 s =
        .ok ⟨.addr (s.pointer p), .ptrDec p, s.cfg.cycles.ptrDec⟩ (s.setPointer p (s.pointer p - 1#16))) ∧
    (op.mode s.cfg = .immediate → (pc0 + 1#16).toNat ≤ s.cfg.memTop.toNat →
      resolveAddr op w pc0 s =
        .ok ⟨.literal (extWord pc0 s), .immediate, s.cfg.cycles.immediate⟩ (s.traced [readEvent s (pc0 + 1#16)])) ∧
    (op.mode s.cfg = .wordDirect → (pc0 + 1#16).toNat ≤ s.cfg.memTop.toNat →
      resolveAddr op w pc0 s =
        .ok ⟨.addr (BitVec.ofNat 16 ((extWord pc0 s).toNat % 32768)), .wordDirect, s.cfg.cycles.wordDirect⟩
          (s.traced [readEvent s (pc0 + 1#16)])) ∧
    (usesExt op s = true → s.cfg.memTop.toNat < (pc0 + 1#16).toNat →
      resolveAddr op w pc0 s = .raised (.addressRange (pc0 + 1#16)) s)

/-! ### The instructions -/

/-- SUB (41_arithmetic.md R91, R92). With v the operand, A the accumulator before and `r = v - A` (`+ C - 1` when M = 1),
a SUB whose operand can be read completes: ACC is `r & 0xFFFF`; C is bit 16 of r, which is 1 exactly when r < 0; Z, S and V
are as R92 says; I, F and M are unchanged; and CYCLES(mode) is returned. When the operand cannot be read, the resolver's
fault is raised and ACC and the flags are unchanged. That C is 1 exactly when r < 0 is derived in R92; the M = 1 case is
the formula as 90_conflicts.md C3 takes it (log entry 15); the state and the fault of the resolution rest on the spec's
decisions D7, D15, D17, D25 and D28 (log entry 19). -/
def Obligations.SubtractRule : Prop :=
  ∀ (op : Operand) (pc0 : Word) (s : State), ExecutingAt (.sub op) pc0 s →
    let v := operandValue op pc0 s
    let r : Int := (v.toNat : Int) - s.acc.toNat + (if s.cr.m then (if s.cr.c then 1 else 0) - 1 else 0)
    functionCode (encode s.cfg (.sub op)) = s.cfg.fcode.sub ∧
    (r / 65536 % 2 = 1 ↔ r < 0) ∧
    (operandReady op pc0 s = true →
      exec (.sub op) s = .next { afterResolve op pc0 s with
        acc := BitVec.ofInt 16 r
        cr := { i := s.cr.i, m := s.cr.m, f := s.cr.f
                c := decide (r / 65536 % 2 = 1)
                z := decide (r % 65536 = 0)
                s := (BitVec.ofInt 16 r).getLsbD 15
                v := decide (s.acc.getLsbD 15 ≠ v.getLsbD 15 ∧
                  (BitVec.ofInt 16 r).getLsbD 15 = s.acc.getLsbD 15) }
        result := some (.continue_ (modeCycles op s)) }) ∧
    (operandReady op pc0 s = false →
      ∃ t, exec (.sub op) s = .next t ∧ t.status = .faulted (operandFault op (encode s.cfg (.sub op)) pc0 s) ∧
        t.acc = s.acc ∧ t.cr = s.cr)

/-- ADD (41_arithmetic.md R93, the spec's decision D14; log entry 14). With `r = v + A` (`+ C` when M = 1), an ADD whose
operand can be read completes: ACC is `r & 0xFFFF`, C is bit 16 of r, Z, S and V as R93 says, I, F and M unchanged. -/
def Obligations.AddCompletes : Prop :=
  ∀ (op : Operand) (pc0 : Word) (s : State), ExecutingAt (.add op) pc0 s → operandReady op pc0 s = true →
    let v := operandValue op pc0 s
    let r : Nat := v.toNat + s.acc.toNat + (if s.cr.m && s.cr.c then 1 else 0)
    exec (.add op) s = .next { afterResolve op pc0 s with
      acc := BitVec.ofNat 16 r
      cr := { i := s.cr.i, m := s.cr.m, f := s.cr.f
              c := decide (65536 ≤ r)
              z := decide (r % 65536 = 0)
              s := (BitVec.ofNat 16 r).getLsbD 15
              v := decide (s.acc.getLsbD 15 = v.getLsbD 15 ∧
                (BitVec.ofNat 16 r).getLsbD 15 ≠ s.acc.getLsbD 15) }
      result := some (.continue_ (modeCycles op s)) }

/-- CMP (41_arithmetic.md R94, the spec's decision D14; log entry 14): SUB's flags from the same r, and ACC unchanged. -/
def Obligations.CompareCompletes : Prop :=
  ∀ (op : Operand) (pc0 : Word) (s : State), ExecutingAt (.cmp op) pc0 s → operandReady op pc0 s = true →
    let v := operandValue op pc0 s
    let r : Int := (v.toNat : Int) - s.acc.toNat + (if s.cr.m then (if s.cr.c then 1 else 0) - 1 else 0)
    exec (.cmp op) s = .next { afterResolve op pc0 s with
      acc := s.acc
      cr := { i := s.cr.i, m := s.cr.m, f := s.cr.f
              c := decide (r < 0)
              z := decide (r % 65536 = 0)
              s := (BitVec.ofInt 16 r).getLsbD 15
              v := decide (s.acc.getLsbD 15 ≠ v.getLsbD 15 ∧
                (BitVec.ofInt 16 r).getLsbD 15 = s.acc.getLsbD 15) }
      result := some (.continue_ (modeCycles op s)) }

/-- LDA, AND and NEQ (42_logic_and_move.md R95, R97, R98, the spec's decision D14; log entry 14): one whose operand v can
be read completes; ACC is v, `ACC & v` or `ACC ^ v`, bit by bit; Z and S describe it; C, V, M, I and F are unchanged. -/
def Obligations.MoveAndLogicComplete : Prop :=
  ∀ (op : Operand) (pc0 : Word) (s : State), operandReady op pc0 s = true →
    let v := operandValue op pc0 s
    let done (res : Word) : State := { afterResolve op pc0 s with
      acc := res
      cr := { i := s.cr.i, v := s.cr.v, c := s.cr.c, m := s.cr.m, f := s.cr.f
              z := decide (res.toNat = 0)
              s := decide (32768 ≤ res.toNat) }
      result := some (.continue_ (modeCycles op s)) }
    (ExecutingAt (.lda op) pc0 s → exec (.lda op) s = .next (done v)) ∧
    (ExecutingAt (.and op) pc0 s →
      exec (.and op) s = .next (done (BitVec.ofNat 16 (s.acc.toNat &&& v.toNat)))) ∧
    (ExecutingAt (.neq op) pc0 s →
      exec (.neq op) s = .next (done (BitVec.ofNat 16 (s.acc.toNat ^^^ v.toNat))))

/-- STO (42_logic_and_move.md R96, the spec's decision D14; log entry 14): with an effective address in range it completes;
the word there is ACC, every other word as before; the pointer change of the mode is made; nothing else changes but the
trace and the reported result. -/
def Obligations.StoreCompletes : Prop :=
  ∀ (op : Operand) (pc0 ea : Word) (s : State), s.Inv → ExecutingAt (.sto op) pc0 s → targetReady op pc0 s = true →
    operandAddr op pc0 s = some ea → ea.toNat ≤ s.cfg.memTop.toNat →
    ∃ t, exec (.sto op) s = .next t ∧ t.peek ea = s.acc ∧ (∀ a, a ≠ ea → t.peek a = s.peek a) ∧
      { t with mem := s.mem } = { s with
        ptr := pointersAfter op s
        tracer := s.tracer.map (⟨.write, ea, s.acc⟩ :: extEvents op pc0 s ++ ·)
        result := some (.continue_ (modeCycles op s)) }

/-- STO stops (42_logic_and_move.md R96, decisions D14, D17, D29): in the Immediate mode with NoEffectiveAddress after the
extension word has been read; at an address above MEMTOP with AddressRangeFault after the pointer change, which stays; and
where address-only resolution cannot finish, with its fault (R82, R83, R87, R121; decisions D8, D10): ReservedR,
ReservedSubMode, or AddressRangeFault at the extension word. In the last case nothing else changes; memory is unchanged in
all. -/
def Obligations.StoreFaults : Prop :=
  ∀ (op : Operand) (pc0 : Word) (s : State), ExecutingAt (.sto op) pc0 s →
    (op.mode s.cfg = .immediate → (pc0 + 1#16).toNat ≤ s.cfg.memTop.toNat →
      let fault : CoreFault := .unimplementedOpcode .noEffectiveAddress (encode s.cfg (.sto op)) pc0
      exec (.sto op) s = .next { s.traced [readEvent s (pc0 + 1#16)] with
        status := .faulted fault, result := some (.fault fault) }) ∧
    (∀ ea, targetReady op pc0 s = true → operandAddr op pc0 s = some ea → s.cfg.memTop.toNat < ea.toNat →
      exec (.sto op) s = .next { s.traced (extEvents op pc0 s) with
        ptr := pointersAfter op s
        status := .faulted (.addressRange ea), result := some (.fault (.addressRange ea)) }) ∧
    (targetReady op pc0 s = false →
      let fault := targetFault op (encode s.cfg (.sto op)) pc0 s
      exec (.sto op) s = .next { s with status := .faulted fault, result := some (.fault fault) })

/-- JMP (43_control.md R100, the spec's decision D14; log entry 14): it completes with PC at the effective address, or in
the Immediate mode at the literal, with no range check; the pointer change of the mode is made; nothing else changes but
the trace and the reported result. -/
def Obligations.JumpCompletes : Prop :=
  ∀ (op : Operand) (pc0 : Word) (s : State), ExecutingAt (.jmp op) pc0 s → targetReady op pc0 s = true →
    exec (.jmp op) s = .next { s.traced (extEvents op pc0 s) with
      pc := match operandAddr op pc0 s with
        | some ea => ea
        | none => extWord pc0 s
      ptr := pointersAfter op s
      result := some (.continue_ (modeCycles op s)) }

/-- JMP stops (43_control.md R100, 40_addressing.md R82, R83, R87; 60_exceptions.md R121; the spec's decisions D8, D10, D14;
log entries 14, 19) where address-only resolution cannot finish: with ReservedR, ReservedSubMode, or AddressRangeFault at
an extension word above MEMTOP. STATUS and the reported result say so; PC stays past the instruction, and no pointer, no
register, no flag, no word of memory and no trace changes. -/
def Obligations.JumpFaults : Prop :=
  ∀ (op : Operand) (pc0 : Word) (s : State), ExecutingAt (.jmp op) pc0 s → targetReady op pc0 s = false →
    let fault : CoreFault := match op.mode s.cfg with
      | .reservedR => .unimplementedOpcode .reservedR (encode s.cfg (.jmp op)) pc0
      | .reservedSubMode => .unimplementedOpcode .reservedSubMode (encode s.cfg (.jmp op)) pc0
      | .direct _ | .immediate | .ptr _ | .ptrInc _ | .ptrDec _ | .wordDirect => .addressRange (pc0 + 1#16)
    exec (.jmp op) s = .next { s with status := .faulted fault, result := some (.fault fault) } ∧
    (∀ a, fault = .addressRange a → s.cfg.memTop.toNat < a.toNat)

/-- HALT (43_control.md R99): STATUS becomes Halted, the step reports Halt, and nothing else changes. That HALT resolves no
operand is the spec's decision D12. -/
def Obligations.HaltStopsTheCore : Prop :=
  ∀ (k : Word) (s : State), exec (.halt k) s = .next { s with status := .halted, result := some .halt }

/-- An instruction whose operand cannot be read, whole (40_addressing.md R89 and decision D17; 60_exceptions.md R121, R122):
STATUS is Faulted with the first fault in the order of accesses; only a `/P+` increment and the read of an extension word
have happened; ACC, OR, the flags, PC and memory are as before. -/
def Obligations.UnreadableOperandFaults : Prop :=
  ∀ (op : Operand) (pc0 : Word) (s : State) (i : Instr),
    i ∈ [Instr.sub op, .add op, .cmp op, .lda op, .and op, .neq op] → ExecutingAt i pc0 s →
    operandReady op pc0 s = false →
    let fault := operandFault op (encode s.cfg i) pc0 s
    exec i s = .next { afterRaise op pc0 s with status := .faulted fault, result := some (.fault fault) } ∧
    (∀ a, (afterRaise op pc0 s).peek a = s.peek a) ∧ (afterRaise op pc0 s).acc = s.acc ∧
    (afterRaise op pc0 s).or = s.or ∧ (afterRaise op pc0 s).cr = s.cr ∧ (afterRaise op pc0 s).pc = s.pc

/-! ### Frames -/

/-- Frame of the instructions that read an operand (R91, R93 to R95, R97, R98): on every path no byte of memory changes,
nor PC, the parameters, the flags I, M and F, nor any pointer but the P of a `/P+` or `/P-` operand. CMP leaves ACC; LDA,
AND and NEQ leave C and V. -/
def Obligations.ReadingInstructionsFrame : Prop :=
  ∀ (op : Operand) (s t : State) (i : Instr),
    i ∈ [Instr.sub op, .add op, .cmp op, .lda op, .and op, .neq op] → exec i s = .next t →
    (∀ a, t.peek a = s.peek a) ∧ t.mem = s.mem ∧ t.pc = s.pc ∧ t.cfg = s.cfg ∧
    t.cr.i = s.cr.i ∧ t.cr.m = s.cr.m ∧ t.cr.f = s.cr.f ∧
    (∀ q, op.mode s.cfg ≠ .ptrInc q → op.mode s.cfg ≠ .ptrDec q → t.pointer q = s.pointer q) ∧
    (i = .cmp op → t.acc = s.acc) ∧
    (i ∈ [Instr.lda op, .and op, .neq op] → t.cr.c = s.cr.c ∧ t.cr.v = s.cr.v)

/-- Frame of STO (R96): on every path ACC, OR, PC, every flag and the parameters are unchanged, and any pointer but the P
of a `/P+` or `/P-` operand; every word but the one at the address that address-only resolution names is unchanged, and
every word is when it names none or names one above MEMTOP. -/
def Obligations.StoreFrame : Prop :=
  ∀ (op : Operand) (s t : State), exec (.sto op) s = .next t →
    let target := resolveAddr op (encode s.cfg (.sto op)) (opcodeAddr (.sto op) s) s
    t.acc = s.acc ∧ t.or = s.or ∧ t.pc = s.pc ∧ t.cr = s.cr ∧ t.cfg = s.cfg ∧
    (∀ q, op.mode s.cfg ≠ .ptrInc q → op.mode s.cfg ≠ .ptrDec q → t.pointer q = s.pointer q) ∧
    (∀ ea m n u, target = .ok ⟨.addr ea, m, n⟩ u →
      (∀ a, a ≠ ea → t.peek a = s.peek a) ∧ (s.cfg.memTop.toNat < ea.toNat → ∀ a, t.peek a = s.peek a)) ∧
    ((∀ ea m n u, target ≠ .ok ⟨.addr ea, m, n⟩ u) → ∀ a, t.peek a = s.peek a)

/-- Frame of JMP and HALT (R99, R100): on every path ACC, OR, every flag, the parameters and every word of memory are
unchanged; HALT changes no pointer and not PC, and JMP no pointer but the P of a `/P+` or `/P-` operand. -/
def Obligations.ControlFrame : Prop :=
  (∀ (op : Operand) (s t : State), exec (.jmp op) s = .next t →
    t.acc = s.acc ∧ t.or = s.or ∧ t.cr = s.cr ∧ t.cfg = s.cfg ∧ (∀ a, t.peek a = s.peek a) ∧ t.mem = s.mem ∧
    (∀ q, op.mode s.cfg ≠ .ptrInc q → op.mode s.cfg ≠ .ptrDec q → t.pointer q = s.pointer q) ∧
    (∀ f, t.status = .faulted f → s.status = .running → t.pc = s.pc)) ∧
  (∀ (k : Word) (s t : State), exec (.halt k) s = .next t →
    t.acc = s.acc ∧ t.or = s.or ∧ t.cr = s.cr ∧ t.cfg = s.cfg ∧ (∀ a, t.peek a = s.peek a) ∧ t.mem = s.mem ∧
    t.ptr = s.ptr ∧ t.pc = s.pc ∧ t.tracer = s.tracer)

/-! ### The controller -/

/-- A step runs the decoded instruction (44_controller.md R102, R105 to R107): when the word at PC is in range and decodes
to i, the step is exec of i at the state in which the read is traced and PC is `(pc0 + L(w)) mod 2^16`. -/
def Obligations.StepRunsTheDecodedInstruction : Prop :=
  ∀ (s : State) (i : Instr), s.status = .running → s.pc.toNat ≤ s.cfg.memTop.toNat →
    decode s.cfg (s.peek s.pc) = .instr i →
    step s = exec i { s with
      pc := s.pc + BitVec.ofNat 16 (wordLength (s.peek s.pc))
      tracer := s.tracer.map (⟨.read, s.pc, s.peek s.pc⟩ :: ·) }

/-- Fetch (44_controller.md R104): the opcode word is the word at PC; when PC is above MEMTOP the step raises
AddressRangeFault(pc0) before any state changes, and PC stays pc0. -/
def Obligations.FetchRule : Prop :=
  ∀ s : State,
    (s.pc.toNat ≤ s.cfg.memTop.toNat → ∃ t, fetch s = .ok (s.peek s.pc) t ∧ ∀ a, t.peek a = s.peek a) ∧
    (s.status = .running → s.cfg.memTop.toNat < s.pc.toNat →
      step s = .next { s with
        status := .faulted (.addressRange s.pc), result := some (.fault (.addressRange s.pc)) })

/-- A word with no handler (44_controller.md R106): UnimplementedOpcodeFault at once, with no operand resolution and no
access beyond the fetch; PC keeps its advanced value. The info (NoHandler, w, pc0) is the spec's decision D28. -/
def Obligations.UnhandledWordFaults : Prop :=
  ∀ s : State, s.status = .running → s.pc.toNat ≤ s.cfg.memTop.toNat → decode s.cfg (s.peek s.pc) = .noHandler →
    let fault : CoreFault := .unimplementedOpcode .noHandler (s.peek s.pc) s.pc
    step s = .next { s with
      pc := s.pc + BitVec.ofNat 16 (wordLength (s.peek s.pc))
      tracer := s.tracer.map (⟨.read, s.pc, s.peek s.pc⟩ :: ·)
      status := .faulted fault
      result := some (.fault fault) }

/-- The core has a step exactly when STATUS is Running (44_controller.md R103); it never answers with a refusal. -/
def Obligations.OnlyARunningCoreSteps : Prop :=
  ∀ s : State,
    ((∃ t, step s = .next t) ↔ s.status = .running) ∧ (s.status = .halted → step s = .fault .steppedWhileHalted) ∧
    (∀ f, s.status = .faulted f → step s = .fault .steppedWhileFaulted) ∧ (∀ r, step s ≠ .refused r)

/-- What a step reports (44_controller.md R110): Continue exactly when STATUS is still Running, with CYCLES(mode) of the
instruction's addressing mode (that number is R107's and R141's, and for the Provisional instructions the spec's decision
D30, log entry 19); Halt exactly when the word was HALT; Fault(fault, info) exactly when STATUS is Faulted(fault, info). -/
def Obligations.StepReportsItsOutcome : Prop :=
  ∀ s t : State, step s = .next t →
    ((∃ n, t.result = some (.continue_ n)) ↔ t.status = .running) ∧
    (∀ n, t.result = some (.continue_ n) →
      ∃ i op, decode s.cfg (s.peek s.pc) = .instr i ∧ i.operand? = some op ∧ n = modeCycles op s) ∧
    (t.result = some .halt ↔ t.status = .halted) ∧
    (∀ f, t.result = some (.fault f) ↔ t.status = .faulted f) ∧
    (t.result = some .halt ↔
      s.pc.toNat ≤ s.cfg.memTop.toNat ∧ ∃ k, decode s.cfg (s.peek s.pc) = .instr (.halt k))

/-- Sequential flow (44_controller.md R105, R114; decisions D15, D16): after any step whose fetch was in range and whose
word was not JMP, PC is `(pc0 + L(w)) mod 2^16`, also after HALT and after a fault. -/
def Obligations.SequentialFlow : Prop :=
  ∀ s t : State, step s = .next t → s.pc.toNat ≤ s.cfg.memTop.toNat →
    (∀ op, decode s.cfg (s.peek s.pc) ≠ .instr (.jmp op)) →
    t.pc.toNat = (s.pc.toNat + wordLength (s.peek s.pc)) % 65536

/-- Which instruction can raise what (60_exceptions.md R121, derived there): every fault of a step is one of that table's,
with the info R118 and R119 give it, and an AddressRangeFault names an address above MEMTOP (R118). -/
def Obligations.WhoRaisesWhat : Prop :=
  ∀ (s t : State) (f : CoreFault), step s = .next t → t.status = .faulted f →
    let w := s.peek s.pc
    let pc0 := s.pc
    let reserved (op : Operand) : Prop :=
      op.mode s.cfg = .reservedR ∧ f = .unimplementedOpcode .reservedR w pc0 ∨
      op.mode s.cfg = .reservedSubMode ∧ f = .unimplementedOpcode .reservedSubMode w pc0
    let above (a : Word) : Prop := f = .addressRange a ∧ s.cfg.memTop.toNat < a.toNat
    let extension (op : Operand) : Prop := usesExt op s = true ∧ above (pc0 + 1#16)
    let access (op : Operand) : Prop := ∃ a, operandAddr op pc0 s = some a ∧ above a
    if s.cfg.memTop.toNat < pc0.toNat then f = .addressRange pc0
    else match decode s.cfg w with
      | .noHandler => f = .unimplementedOpcode .noHandler w pc0
      | .instr (.halt _) => False
      | .instr (.jmp op) => reserved op ∨ extension op
      | .instr (.sto op) => reserved op ∨ extension op ∨ access op ∨
          op.mode s.cfg = .immediate ∧ f = .unimplementedOpcode .noEffectiveAddress w pc0
      | .instr (.sub op) | .instr (.lda op) | .instr (.add op) | .instr (.cmp op) | .instr (.and op)
      | .instr (.neq op) => reserved op ∨ extension op ∨ access op

/-- A fault is no trap (60_exceptions.md R123; no rollback is decision D17): after a step that faults, ACC, OR, the flags
and every word of memory are as before it. -/
def Obligations.FaultLeavesRegistersAndMemory : Prop :=
  ∀ (s t : State) (f : CoreFault), step s = .next t → t.status = .faulted f →
    t.acc = s.acc ∧ t.or = s.or ∧ t.cr = s.cr ∧ t.cfg = s.cfg ∧ ∀ a, t.peek a = s.peek a

/-! ### Whole-machine rules -/

/-- No instruction of any profile writes CR.I, CR.M or CR.F (10_state.md R27, R32, R33), and the parameters are fixed for
a run (44_controller.md R112). -/
def Obligations.StepKeepsControlFlags : Prop :=
  ∀ s t : State, step s = .next t → t.cr.i = s.cr.i ∧ t.cr.m = s.cr.m ∧ t.cr.f = s.cr.f ∧ t.cfg = s.cfg

/-- CR.I and CR.F (10_state.md R27, R33): no rule reads them, no instruction writes them, and reset clears them. From
states that differ only in I and F, a step has the same outcome with the same difference. -/
def Obligations.InterruptFlagHasNoEffect : Prop :=
  ∀ (s : State) (bi bf : Bool),
    let put (t : State) : State := { t with cr := { t.cr with i := bi, f := bf } }
    (∀ t, step s = .next t → step (put s) = .next (put t) ∧ t.cr.i = s.cr.i ∧ t.cr.f = s.cr.f) ∧
    (∀ e, step s = .fault e → step (put s) = .fault e) ∧ (resetOp s).cr.i = false ∧ (resetOp s).cr.f = false

/-- No instruction reads OR or the flags Z, V and S (10_state.md R24, R28 to R30): from states that differ only in them, a
step leaves the same ACC, PC, pointers, memory, STATUS, trace and reported result, and the same C, M, I and F. -/
def Obligations.UnreadRegistersDoNotSteer : Prop :=
  ∀ (s t : State) (o : Word) (bz bv bs : Bool), step s = .next t →
    ∃ u, step { s with or := o, cr := { s.cr with z := bz, v := bv, s := bs } } = .next u ∧
      { u with or := t.or, cr := { u.cr with z := t.cr.z, v := t.cr.v, s := t.cr.s } } = t

/-- PTR[0] is never read or written by a step (10_state.md R35, derived there from R81). -/
def Obligations.PointerZeroIsNeverUsed : Prop :=
  ∀ (s t : State) (v : Word), step s = .next t →
    t.pointer 0#8 = s.pointer 0#8 ∧ step (s.setPointer 0#8 v) = .next (t.setPointer 0#8 v)

/-- A step changes at most one pointer register, by one up or down modulo 2^16 (70_reset_and_hazards.md R140, derived
there; the wrap is decision D7). -/
def Obligations.OnePointerMovesByOne : Prop :=
  ∀ s t : State, step s = .next t →
    ∃ p, (∀ q, q ≠ p → t.pointer q = s.pointer q) ∧
      (t.pointer p = s.pointer p ∨ t.pointer p = s.pointer p + 1#16 ∨ t.pointer p = s.pointer p - 1#16)

/-- Tracing never affects a result (20_memory.md R50; 60_exceptions.md R130): the events of a step are the same whatever
tracer is attached, they are only added to what it was given before, and everything else the step leaves is the same. -/
def Obligations.TracingIsAnObserver : Prop :=
  ∀ s t : State, step s = .next t →
    ∃ events : List TraceEvent, ∀ x : Option (List TraceEvent),
      step { s with tracer := x } = .next { t with tracer := x.map (events ++ ·) }

/-! ### The host interface -/

/-- Load (44_controller.md R115; 20_memory.md R52, R61; 70_reset_and_hazards.md R133, R135): after a load and a reset every
word the image gives holds what it gives, every other word SENTINEL, and the pointer file is the one given. That an image
lies within [0, MEMTOP] is the model's condition (log entry 16). -/
def Obligations.LaunchHoldsTheImage : Prop :=
  ∀ (image : List (Word × Word)) (pointers : Vector Word 256) (s : State),
    (∀ e ∈ image, e.1.toNat ≤ s.cfg.memTop.toNat) → (image.map (·.1)).Nodup →
    ∃ t, Driver.session [.load image pointers, .reset] s = some t ∧ t.Inv ∧ t.ptr = pointers ∧
      t.status = .running ∧ t.pc = s.cfg.entry ∧ (∀ e ∈ image, t.peek e.1 = e.2) ∧
      (∀ a, (∀ e ∈ image, e.1 ≠ a) → t.peek a = s.cfg.sentinel)

/-- Halted and Faulted are left only by reset (44_controller.md R111; 70_reset_and_hazards.md R134, decision D18): in them
the host has no step, no other transaction changes STATUS (that a load may come in them is log entry 20), and after a
reset the core steps again. -/
def Obligations.OnlyResetLeavesAStop : Prop :=
  ∀ s : State, s.status ≠ .running →
    Driver.apply .singleStep s = none ∧
    (∀ a t, Driver.apply a s = some t → a ≠ .reset → t.status = s.status) ∧
    ∃ t u, Driver.apply .reset s = some t ∧ Driver.apply .singleStep t = some u
end

