-- ==== Sys2Proof/Laws/Decode.lean ====
section
/-! SUPPORT. The fields of an encoded word read back, and a word is made of its fields. -/

namespace Sys2Proof

/-- The length of an operand's instruction from its fields alone (R67): N = 0, or P = 0. -/
def Operand.words : Operand → Nat
  | .formatA n => if n = 0#11 then 2 else 1
  | .formatB _ _ p => if p = 0#8 then 2 else 1

/-- The function code of an encoded word. -/
theorem functionCode_encodeFields (f : BitVec 4) (op : Operand) : functionCode (encodeFields f op) = f := by
  ext i hi
  cases op <;>
    simp only [functionCode, encodeFields, encodeOperand, BitVec.getElem_extractLsb', BitVec.getLsbD_or] <;>
    interval_cases i <;> simp

/-- The mode selector of an encoded word. -/
theorem modeSelector_encodeFields (f : BitVec 4) (op : Operand) :
    modeSelector (encodeFields f op) = match op with | .formatA _ => false | .formatB _ _ _ => true := by
  cases op <;> simp [modeSelector, encodeFields, encodeOperand]

/-- The operand fields of an encoded word read back. -/
theorem decodeOperand_encodeFields (f : BitVec 4) (op : Operand) : decodeOperand (encodeFields f op) = op := by
  unfold decodeOperand
  rw [modeSelector_encodeFields]
  cases op with
  | formatA n =>
    simp only [Bool.false_eq_true, if_false, Operand.formatA.injEq]
    ext i hi
    simp only [encodeFields, encodeOperand, BitVec.getElem_extractLsb', BitVec.getLsbD_or]
    interval_cases i <;> simp
  | formatB r sm p =>
    simp only [if_true, Operand.formatB.injEq]
    refine ⟨by simp [encodeFields, encodeOperand], ?_, ?_⟩ <;> ext i hi <;>
      simp only [encodeFields, encodeOperand, BitVec.getElem_extractLsb', BitVec.getLsbD_or] <;>
      interval_cases i <;> simp

/-- A word is its function code and its operand fields: no bit is lost. -/
theorem encodeFields_decodeOperand (w : Word) : encodeFields (functionCode w) (decodeOperand w) = w := by
  unfold decodeOperand modeSelector
  by_cases h11 : w.getLsbD 11 = true
  · ext i hi
    rw [if_pos h11]
    simp only [encodeFields, encodeOperand, functionCode, BitVec.getElem_or]
    interval_cases i <;> simp_all
  · ext i hi
    rw [if_neg h11]
    simp only [encodeFields, encodeOperand, functionCode, BitVec.getElem_or]
    interval_cases i <;> simp_all

/-- The length of an encoded memory-reference instruction comes from its operand fields (R67). -/
theorem wordLength_encodeFields (f : BitVec 4) (op : Operand) : wordLength (encodeFields f op) = op.words := by
  have h := decodeOperand_encodeFields f op
  have hm := modeSelector_encodeFields f op
  unfold decodeOperand at h
  unfold wordLength
  unfold modeSelector at h hm
  cases op with
  | formatA n =>
    simp only [hm, Bool.false_eq_true, if_false, Operand.formatA.injEq] at h
    simp only [hm, h, Operand.words, true_and, Bool.false_eq_true, false_and, or_false]
  | formatB r sm p =>
    simp only [hm, if_true, Operand.formatB.injEq] at h
    simp only [hm, h.2.2, Operand.words, true_and, Bool.true_eq_false, false_and, false_or]

/-- Every word has length 1 or 2. -/
theorem wordLength_cases (w : Word) : wordLength w = 1 ∨ wordLength w = 2 := by
  unfold wordLength; split <;> simp

/-- The bits of a word inside and outside a mask put together. -/
theorem and_or_and_not (w m : Word) : (w &&& m) ||| (w &&& ~~~m) = w := by
  ext i hi
  simp only [BitVec.getElem_or, BitVec.getElem_and, BitVec.getElem_not]
  cases w[i] <;> cases m[i] <;> rfl

/-- A branch of the decoder that gave an instruction either gave it at its own test or later. -/
theorem ite_instr {c : Prop} [Decidable c] {a i : Instr} {d : Decoded} (h : (if c then .instr a else d) = .instr i) :
    c ∧ a = i ∨ d = .instr i := by
  by_cases hc : c
  · rw [if_pos hc] at h; exact .inl ⟨hc, Decoded.instr.inj h⟩
  · rw [if_neg hc] at h; exact .inr h

/-- Everything the decoder can answer when it answers an instruction (R69, R70): HALT by its pattern, or an instruction
that the profile admits, by its function code and with the word's operand fields. -/
theorem decode_instr_cases {cfg : Config} {w : Word} {i : Instr} (h : decode cfg w = .instr i) :
    isHalt cfg w = true ∧ i = haltOf cfg w ∨
      isHalt cfg w = false ∧ cfg.profile.admits i = true ∧ cfg.fcodeOf i = some (functionCode w) ∧
        i.operand? = some (decodeOperand w) := by
  unfold decode at h
  cases hh : isHalt cfg w
  · refine .inr ⟨rfl, ?_⟩
    cases hp : cfg.profile <;> simp only [hp, decodeCore, decodeProv, hh, Bool.false_eq_true, if_false] at h
    · obtain ⟨hf, rfl⟩ | h := ite_instr h
      · exact ⟨rfl, congrArg some hf.symm, rfl⟩
      · cases h
    · iterate 8
        obtain ⟨hf, rfl⟩ | h := ite_instr h
        · exact ⟨rfl, congrArg some hf.symm, rfl⟩
      cases h
  · refine .inl ⟨rfl, ?_⟩
    cases hp : cfg.profile <;> simp only [hp, decodeCore, decodeProv, hh, if_true, Decoded.instr.injEq] at h <;>
      exact h.symm

/-- The mode of a Format B operand with P ≠ 0 whose bit R does not fault (R66). -/
theorem mode_formatB_pointer {cfg : Config} {r : Bool} {sm : BitVec 2} {p : BitVec 8}
    (hr : r = true → cfg.rPolicy = .ignore) (hp : p ≠ 0#8) :
    (Operand.formatB r sm p).mode cfg = match cfg.subModes.get sm with
      | .ptr => .ptr p
      | .ptrInc => .ptrInc p
      | .ptrDec => .ptrDec p
      | .reserved => .reservedSubMode := by
  have hn : ¬ (r = true ∧ cfg.rPolicy = .fault) := fun ⟨h1, h2⟩ => by rw [hr h1] at h2; cases h2
  cases h : cfg.subModes.get sm <;> simp only [Operand.mode, if_neg hn, if_neg hp, h]

/-- The mode of a Format B operand with P = 0 whose bit R does not fault (R66). -/
theorem mode_formatB_zero {cfg : Config} {r : Bool} {sm : BitVec 2} (hr : r = true → cfg.rPolicy = .ignore) :
    (Operand.formatB r sm 0#8).mode cfg = .wordDirect := by
  have hn : ¬ (r = true ∧ cfg.rPolicy = .fault) := fun ⟨h1, h2⟩ => by rw [hr h1] at h2; cases h2
  rw [Operand.mode, if_neg hn, if_pos rfl]

end Sys2Proof
end

