-- ==== Sys2Proof/Laws/State.lean ====
section
/-! SUPPORT. One lemma per field per named update of State, each true by rfl, so that no proof unfolds an update. -/

namespace Sys2Proof.Machine

/-! ### setPointer -/

@[simp] theorem setPointer_cfg (s : State) (p : BitVec 8) (v : Word) : (s.setPointer p v).cfg = s.cfg := rfl
@[simp] theorem setPointer_acc (s : State) (p : BitVec 8) (v : Word) : (s.setPointer p v).acc = s.acc := rfl
@[simp] theorem setPointer_or (s : State) (p : BitVec 8) (v : Word) : (s.setPointer p v).or = s.or := rfl
@[simp] theorem setPointer_pc (s : State) (p : BitVec 8) (v : Word) : (s.setPointer p v).pc = s.pc := rfl
@[simp] theorem setPointer_cr (s : State) (p : BitVec 8) (v : Word) : (s.setPointer p v).cr = s.cr := rfl
@[simp] theorem setPointer_ptr (s : State) (p : BitVec 8) (v : Word) : (s.setPointer p v).ptr = s.ptr.set p.toNat v := rfl
@[simp] theorem setPointer_mem (s : State) (p : BitVec 8) (v : Word) : (s.setPointer p v).mem = s.mem := rfl
@[simp] theorem setPointer_status (s : State) (p : BitVec 8) (v : Word) : (s.setPointer p v).status = s.status := rfl
@[simp] theorem setPointer_tracer (s : State) (p : BitVec 8) (v : Word) : (s.setPointer p v).tracer = s.tracer := rfl
@[simp] theorem setPointer_result (s : State) (p : BitVec 8) (v : Word) : (s.setPointer p v).result = s.result := rfl

/-! ### poke -/

@[simp] theorem poke_cfg (s : State) (a v : Word) : (s.poke a v).cfg = s.cfg := rfl
@[simp] theorem poke_acc (s : State) (a v : Word) : (s.poke a v).acc = s.acc := rfl
@[simp] theorem poke_or (s : State) (a v : Word) : (s.poke a v).or = s.or := rfl
@[simp] theorem poke_pc (s : State) (a v : Word) : (s.poke a v).pc = s.pc := rfl
@[simp] theorem poke_cr (s : State) (a v : Word) : (s.poke a v).cr = s.cr := rfl
@[simp] theorem poke_ptr (s : State) (a v : Word) : (s.poke a v).ptr = s.ptr := rfl
@[simp] theorem poke_mem (s : State) (a v : Word) : (s.poke a v).mem = Memory.set s.cfg.sentinel s.mem a.toNat v := rfl
@[simp] theorem poke_status (s : State) (a v : Word) : (s.poke a v).status = s.status := rfl
@[simp] theorem poke_tracer (s : State) (a v : Word) : (s.poke a v).tracer = s.tracer := rfl
@[simp] theorem poke_result (s : State) (a v : Word) : (s.poke a v).result = s.result := rfl

/-! ### emit -/

@[simp] theorem emit_cfg (s : State) (e : TraceEvent) : (s.emit e).cfg = s.cfg := rfl
@[simp] theorem emit_acc (s : State) (e : TraceEvent) : (s.emit e).acc = s.acc := rfl
@[simp] theorem emit_or (s : State) (e : TraceEvent) : (s.emit e).or = s.or := rfl
@[simp] theorem emit_pc (s : State) (e : TraceEvent) : (s.emit e).pc = s.pc := rfl
@[simp] theorem emit_cr (s : State) (e : TraceEvent) : (s.emit e).cr = s.cr := rfl
@[simp] theorem emit_ptr (s : State) (e : TraceEvent) : (s.emit e).ptr = s.ptr := rfl
@[simp] theorem emit_mem (s : State) (e : TraceEvent) : (s.emit e).mem = s.mem := rfl
@[simp] theorem emit_status (s : State) (e : TraceEvent) : (s.emit e).status = s.status := rfl
@[simp] theorem emit_tracer (s : State) (e : TraceEvent) : (s.emit e).tracer = s.tracer.map (e :: ·) := rfl
@[simp] theorem emit_result (s : State) (e : TraceEvent) : (s.emit e).result = s.result := rfl

/-! ### traced -/

@[simp] theorem traced_cfg (s : State) (es : List TraceEvent) : (s.traced es).cfg = s.cfg := rfl
@[simp] theorem traced_acc (s : State) (es : List TraceEvent) : (s.traced es).acc = s.acc := rfl
@[simp] theorem traced_or (s : State) (es : List TraceEvent) : (s.traced es).or = s.or := rfl
@[simp] theorem traced_pc (s : State) (es : List TraceEvent) : (s.traced es).pc = s.pc := rfl
@[simp] theorem traced_cr (s : State) (es : List TraceEvent) : (s.traced es).cr = s.cr := rfl
@[simp] theorem traced_ptr (s : State) (es : List TraceEvent) : (s.traced es).ptr = s.ptr := rfl
@[simp] theorem traced_mem (s : State) (es : List TraceEvent) : (s.traced es).mem = s.mem := rfl
@[simp] theorem traced_status (s : State) (es : List TraceEvent) : (s.traced es).status = s.status := rfl
@[simp] theorem traced_tracer (s : State) (es : List TraceEvent) : (s.traced es).tracer = s.tracer.map (es ++ ·) := rfl
@[simp] theorem traced_result (s : State) (es : List TraceEvent) : (s.traced es).result = s.result := rfl

/-! ### takeFault -/

@[simp] theorem takeFault_cfg (f : CoreFault) (s : State) : (takeFault f s).cfg = s.cfg := rfl
@[simp] theorem takeFault_acc (f : CoreFault) (s : State) : (takeFault f s).acc = s.acc := rfl
@[simp] theorem takeFault_or (f : CoreFault) (s : State) : (takeFault f s).or = s.or := rfl
@[simp] theorem takeFault_pc (f : CoreFault) (s : State) : (takeFault f s).pc = s.pc := rfl
@[simp] theorem takeFault_cr (f : CoreFault) (s : State) : (takeFault f s).cr = s.cr := rfl
@[simp] theorem takeFault_ptr (f : CoreFault) (s : State) : (takeFault f s).ptr = s.ptr := rfl
@[simp] theorem takeFault_mem (f : CoreFault) (s : State) : (takeFault f s).mem = s.mem := rfl
@[simp] theorem takeFault_status (f : CoreFault) (s : State) : (takeFault f s).status = .faulted f := rfl
@[simp] theorem takeFault_tracer (f : CoreFault) (s : State) : (takeFault f s).tracer = s.tracer := rfl
@[simp] theorem takeFault_result (f : CoreFault) (s : State) : (takeFault f s).result = some (.fault f) := rfl

/-! ### takeHalt -/

@[simp] theorem takeHalt_cfg (s : State) : (takeHalt s).cfg = s.cfg := rfl
@[simp] theorem takeHalt_acc (s : State) : (takeHalt s).acc = s.acc := rfl
@[simp] theorem takeHalt_or (s : State) : (takeHalt s).or = s.or := rfl
@[simp] theorem takeHalt_pc (s : State) : (takeHalt s).pc = s.pc := rfl
@[simp] theorem takeHalt_cr (s : State) : (takeHalt s).cr = s.cr := rfl
@[simp] theorem takeHalt_ptr (s : State) : (takeHalt s).ptr = s.ptr := rfl
@[simp] theorem takeHalt_mem (s : State) : (takeHalt s).mem = s.mem := rfl
@[simp] theorem takeHalt_status (s : State) : (takeHalt s).status = .halted := rfl
@[simp] theorem takeHalt_tracer (s : State) : (takeHalt s).tracer = s.tracer := rfl
@[simp] theorem takeHalt_result (s : State) : (takeHalt s).result = some .halt := rfl

/-! ### complete -/

@[simp] theorem complete_cfg (n : Nat) (s : State) : (complete n s).cfg = s.cfg := rfl
@[simp] theorem complete_acc (n : Nat) (s : State) : (complete n s).acc = s.acc := rfl
@[simp] theorem complete_or (n : Nat) (s : State) : (complete n s).or = s.or := rfl
@[simp] theorem complete_pc (n : Nat) (s : State) : (complete n s).pc = s.pc := rfl
@[simp] theorem complete_cr (n : Nat) (s : State) : (complete n s).cr = s.cr := rfl
@[simp] theorem complete_ptr (n : Nat) (s : State) : (complete n s).ptr = s.ptr := rfl
@[simp] theorem complete_mem (n : Nat) (s : State) : (complete n s).mem = s.mem := rfl
@[simp] theorem complete_status (n : Nat) (s : State) : (complete n s).status = s.status := rfl
@[simp] theorem complete_tracer (n : Nat) (s : State) : (complete n s).tracer = s.tracer := rfl
@[simp] theorem complete_result (n : Nat) (s : State) : (complete n s).result = some (.continue_ n) := rfl

/-! ### resetOp -/

@[simp] theorem resetOp_cfg (s : State) : (resetOp s).cfg = s.cfg := rfl
@[simp] theorem resetOp_acc (s : State) : (resetOp s).acc = 0#16 := rfl
@[simp] theorem resetOp_or (s : State) : (resetOp s).or = 0#16 := rfl
@[simp] theorem resetOp_pc (s : State) : (resetOp s).pc = s.cfg.entry := rfl
@[simp] theorem resetOp_cr (s : State) : (resetOp s).cr = CondReg.cleared := rfl
@[simp] theorem resetOp_ptr (s : State) : (resetOp s).ptr = s.ptr := rfl
@[simp] theorem resetOp_mem (s : State) : (resetOp s).mem = s.mem := rfl
@[simp] theorem resetOp_status (s : State) : (resetOp s).status = .running := rfl
@[simp] theorem resetOp_tracer (s : State) : (resetOp s).tracer = s.tracer := rfl
@[simp] theorem resetOp_result (s : State) : (resetOp s).result = none := rfl

/-! ### incPointer -/

@[simp] theorem incPointer_cfg (p : BitVec 8) (s : State) : (incPointer p s).cfg = s.cfg := rfl
@[simp] theorem incPointer_acc (p : BitVec 8) (s : State) : (incPointer p s).acc = s.acc := rfl
@[simp] theorem incPointer_or (p : BitVec 8) (s : State) : (incPointer p s).or = s.or := rfl
@[simp] theorem incPointer_pc (p : BitVec 8) (s : State) : (incPointer p s).pc = s.pc := rfl
@[simp] theorem incPointer_cr (p : BitVec 8) (s : State) : (incPointer p s).cr = s.cr := rfl
@[simp] theorem incPointer_ptr (p : BitVec 8) (s : State) : (incPointer p s).ptr = s.ptr.set p.toNat (s.pointer p + 1#16) := rfl
@[simp] theorem incPointer_mem (p : BitVec 8) (s : State) : (incPointer p s).mem = s.mem := rfl
@[simp] theorem incPointer_status (p : BitVec 8) (s : State) : (incPointer p s).status = s.status := rfl
@[simp] theorem incPointer_tracer (p : BitVec 8) (s : State) : (incPointer p s).tracer = s.tracer := rfl
@[simp] theorem incPointer_result (p : BitVec 8) (s : State) : (incPointer p s).result = s.result := rfl

/-! ### decPointer -/

@[simp] theorem decPointer_cfg (p : BitVec 8) (s : State) : (decPointer p s).cfg = s.cfg := rfl
@[simp] theorem decPointer_acc (p : BitVec 8) (s : State) : (decPointer p s).acc = s.acc := rfl
@[simp] theorem decPointer_or (p : BitVec 8) (s : State) : (decPointer p s).or = s.or := rfl
@[simp] theorem decPointer_pc (p : BitVec 8) (s : State) : (decPointer p s).pc = s.pc := rfl
@[simp] theorem decPointer_cr (p : BitVec 8) (s : State) : (decPointer p s).cr = s.cr := rfl
@[simp] theorem decPointer_ptr (p : BitVec 8) (s : State) : (decPointer p s).ptr = s.ptr.set p.toNat (s.pointer p - 1#16) := rfl
@[simp] theorem decPointer_mem (p : BitVec 8) (s : State) : (decPointer p s).mem = s.mem := rfl
@[simp] theorem decPointer_status (p : BitVec 8) (s : State) : (decPointer p s).status = s.status := rfl
@[simp] theorem decPointer_tracer (p : BitVec 8) (s : State) : (decPointer p s).tracer = s.tracer := rfl
@[simp] theorem decPointer_result (p : BitVec 8) (s : State) : (decPointer p s).result = s.result := rfl

/-! ### atDispatch -/

@[simp] theorem atDispatch_cfg (s : State) : (atDispatch s).cfg = s.cfg := rfl
@[simp] theorem atDispatch_acc (s : State) : (atDispatch s).acc = s.acc := rfl
@[simp] theorem atDispatch_or (s : State) : (atDispatch s).or = s.or := rfl
@[simp] theorem atDispatch_pc (s : State) : (atDispatch s).pc = s.pc + BitVec.ofNat 16 (wordLength (s.peek s.pc)) := rfl
@[simp] theorem atDispatch_cr (s : State) : (atDispatch s).cr = s.cr := rfl
@[simp] theorem atDispatch_ptr (s : State) : (atDispatch s).ptr = s.ptr := rfl
@[simp] theorem atDispatch_mem (s : State) : (atDispatch s).mem = s.mem := rfl
@[simp] theorem atDispatch_status (s : State) : (atDispatch s).status = s.status := rfl
@[simp] theorem atDispatch_tracer (s : State) : (atDispatch s).tracer = s.tracer.map ([readEvent s s.pc] ++ ·) := rfl
@[simp] theorem atDispatch_result (s : State) : (atDispatch s).result = s.result := rfl

/-! ### Flag updates -/

@[simp] theorem afterSub_i (cr : CondReg) (a v : Word) (r : Int) : (cr.afterSub a v r).i = cr.i := rfl
@[simp] theorem afterSub_z (cr : CondReg) (a v : Word) (r : Int) : (cr.afterSub a v r).z = isZero (narrow r) := rfl
@[simp] theorem afterSub_v (cr : CondReg) (a v : Word) (r : Int) : (cr.afterSub a v r).v = subOverflow a v (narrow r) := rfl
@[simp] theorem afterSub_s (cr : CondReg) (a v : Word) (r : Int) : (cr.afterSub a v r).s = sign (narrow r) := rfl
@[simp] theorem afterSub_c (cr : CondReg) (a v : Word) (r : Int) : (cr.afterSub a v r).c = bit16 r := rfl
@[simp] theorem afterSub_m (cr : CondReg) (a v : Word) (r : Int) : (cr.afterSub a v r).m = cr.m := rfl
@[simp] theorem afterSub_f (cr : CondReg) (a v : Word) (r : Int) : (cr.afterSub a v r).f = cr.f := rfl

@[simp] theorem afterAdd_i (cr : CondReg) (a v : Word) (r : Int) : (cr.afterAdd a v r).i = cr.i := rfl
@[simp] theorem afterAdd_z (cr : CondReg) (a v : Word) (r : Int) : (cr.afterAdd a v r).z = isZero (narrow r) := rfl
@[simp] theorem afterAdd_v (cr : CondReg) (a v : Word) (r : Int) : (cr.afterAdd a v r).v = addOverflow a v (narrow r) := rfl
@[simp] theorem afterAdd_s (cr : CondReg) (a v : Word) (r : Int) : (cr.afterAdd a v r).s = sign (narrow r) := rfl
@[simp] theorem afterAdd_c (cr : CondReg) (a v : Word) (r : Int) : (cr.afterAdd a v r).c = bit16 r := rfl
@[simp] theorem afterAdd_m (cr : CondReg) (a v : Word) (r : Int) : (cr.afterAdd a v r).m = cr.m := rfl
@[simp] theorem afterAdd_f (cr : CondReg) (a v : Word) (r : Int) : (cr.afterAdd a v r).f = cr.f := rfl

@[simp] theorem afterMove_i (cr : CondReg) (res : Word) : (cr.afterMove res).i = cr.i := rfl
@[simp] theorem afterMove_z (cr : CondReg) (res : Word) : (cr.afterMove res).z = isZero res := rfl
@[simp] theorem afterMove_v (cr : CondReg) (res : Word) : (cr.afterMove res).v = cr.v := rfl
@[simp] theorem afterMove_s (cr : CondReg) (res : Word) : (cr.afterMove res).s = sign res := rfl
@[simp] theorem afterMove_c (cr : CondReg) (res : Word) : (cr.afterMove res).c = cr.c := rfl
@[simp] theorem afterMove_m (cr : CondReg) (res : Word) : (cr.afterMove res).m = cr.m := rfl
@[simp] theorem afterMove_f (cr : CondReg) (res : Word) : (cr.afterMove res).f = cr.f := rfl

/-! ### Views -/

/-- Observing memory depends on the parameters and the memory only. -/
theorem peek_congr {s t : State} (hc : t.cfg = s.cfg) (hm : t.mem = s.mem) (a : Word) : t.peek a = s.peek a := by
  simp only [State.peek, hc, hm]

/-- The range test depends on the parameters only. -/
theorem inRange_congr {s t : State} (hc : t.cfg = s.cfg) (a : Word) : t.inRange a = s.inRange a := by
  simp only [State.inRange, hc]

/-- The range test as an inequality. -/
theorem inRange_iff {s : State} {a : Word} : s.inRange a = true ↔ a.toNat ≤ s.cfg.memTop.toNat := by
  simp [State.inRange]

/-- The failed range test as an inequality. -/
theorem not_inRange_iff {s : State} {a : Word} : s.inRange a = false ↔ s.cfg.memTop.toNat < a.toNat := by
  simp [State.inRange]

/-- A pointer that was just set reads back. -/
@[simp] theorem pointer_setPointer_self (s : State) (p : BitVec 8) (v : Word) : (s.setPointer p v).pointer p = v := by
  simp [State.pointer]

/-- Setting one pointer leaves the others alone. -/
theorem pointer_setPointer_of_ne (s : State) {p q : BitVec 8} (v : Word) (h : q ≠ p) :
    (s.setPointer p v).pointer q = s.pointer q := by
  have hne : p.toNat ≠ q.toNat := fun e => h (BitVec.eq_of_toNat_eq e.symm)
  simp [State.pointer, hne]

@[simp] theorem pointer_incPointer_self (s : State) (p : BitVec 8) : (incPointer p s).pointer p = s.pointer p + 1#16 := by
  simp [State.pointer]

@[simp] theorem emit_pointer (s : State) (e : TraceEvent) (p : BitVec 8) : (s.emit e).pointer p = s.pointer p := rfl

@[simp] theorem emit_peek (s : State) (e : TraceEvent) (a : Word) : (s.emit e).peek a = s.peek a := rfl

@[simp] theorem emit_inRange (s : State) (e : TraceEvent) (a : Word) : (s.emit e).inRange a = s.inRange a := rfl

@[simp] theorem setPointer_peek (s : State) (p : BitVec 8) (v a : Word) : (s.setPointer p v).peek a = s.peek a := rfl

@[simp] theorem setPointer_inRange (s : State) (p : BitVec 8) (v a : Word) :
    (s.setPointer p v).inRange a = s.inRange a := rfl

@[simp] theorem incPointer_peek (s : State) (p : BitVec 8) (a : Word) : (incPointer p s).peek a = s.peek a := rfl

@[simp] theorem incPointer_inRange (s : State) (p : BitVec 8) (a : Word) :
    (incPointer p s).inRange a = s.inRange a := rfl

@[simp] theorem poke_inRange (s : State) (a v b : Word) : (s.poke a v).inRange b = s.inRange b := rfl

@[simp] theorem poke_peek (s : State) (a v b : Word) :
    (s.poke a v).peek b = Memory.get s.cfg.sentinel (Memory.set s.cfg.sentinel s.mem a.toNat v) b.toNat := rfl

/-- A tracer that is given nothing is as before. -/
@[simp] theorem traced_nil (s : State) : s.traced [] = s := by
  cases s with | mk cfg acc or pc cr ptr mem status tracer result => cases tracer <;> rfl

end Sys2Proof.Machine
end

