-- ==== Sys2Proof/Laws/Memory.lean ====
section
/-! SUPPORT. The laws of the memory array: reading after a store, the canonical form kept, and one canonical form for one
contents. -/

namespace Sys2Proof.Machine

/-- Storing at an address leaves every other address as it was; no form is needed for this. -/
theorem Memory.get_set_of_ne (d : Word) (m : Mem) {a b : Nat} (v : Word) (h : b ≠ a) :
    Memory.get d (Memory.set d m a v) b = Memory.get d m b := by
  induction m with
  | nil => unfold Memory.set; split <;> simp [Memory.get, h]
  | cons e rest ih =>
    obtain ⟨c, u⟩ := e
    unfold Memory.set
    split
    · split <;> simp [Memory.get, h]
    · split
      · next hac => subst hac; split <;> simp [Memory.get, h]
      · simp only [Memory.get, ih]

/-- An address below everything listed reads SENTINEL. -/
theorem Memory.get_of_above (d : Word) {m : Mem} {lo a : Nat} (hm : Memory.above lo m = true) (ha : a < lo) :
    Memory.get d m a = d := by
  induction m with
  | nil => rfl
  | cons e rest ih =>
    obtain ⟨c, u⟩ := e
    simp only [Memory.above, Bool.and_eq_true, decide_eq_true_eq] at hm
    have hne : a ≠ c := by omega
    simp only [Memory.get, hne, if_false]
    exact ih hm.2

/-- A lower bound stays a lower bound under a weaker one. -/
theorem Memory.above_mono {m : Mem} {lo hi : Nat} (h : Memory.above hi m = true) (hle : lo ≤ hi) :
    Memory.above lo m = true := by
  induction m with
  | nil => rfl
  | cons e rest ih =>
    obtain ⟨c, u⟩ := e
    simp only [Memory.above, Bool.and_eq_true, decide_eq_true_eq] at h ⊢
    exact ⟨by omega, ih h.2⟩

/-- A store at or above a bound keeps the bound. -/
theorem Memory.above_set (d : Word) {m : Mem} {lo a : Nat} (v : Word) (h : Memory.above lo m = true) (ha : lo ≤ a) :
    Memory.above lo (Memory.set d m a v) = true := by
  induction m with
  | nil => unfold Memory.set; split <;> simp [Memory.above, ha]
  | cons e rest ih =>
    obtain ⟨c, u⟩ := e
    have h' := h
    simp only [Memory.above, Bool.and_eq_true, decide_eq_true_eq] at h'
    unfold Memory.set
    split
    · split
      · exact h
      · simp [Memory.above, ha, h'.1, h'.2]
    · split
      · split
        · exact h'.2
        · simp [Memory.above, ha, h'.2]
      · simp [Memory.above, h'.1, ih h'.2]

/-- A store in range keeps the canonical form. -/
theorem Memory.wf_set (d : Word) {top a : Nat} {m : Mem} (v : Word) (h : Memory.wf d top m = true) (ha : a ≤ top) :
    Memory.wf d top (Memory.set d m a v) = true := by
  induction m with
  | nil => unfold Memory.set; split <;> simp_all [Memory.wf, Memory.above]
  | cons e rest ih =>
    obtain ⟨c, u⟩ := e
    have h' := h
    simp only [Memory.wf, Bool.and_eq_true, decide_eq_true_eq] at h'
    obtain ⟨⟨⟨hc, hu⟩, hab⟩, hw⟩ := h'
    unfold Memory.set
    split
    · next hlt =>
      split
      · exact h
      · next hv =>
        have : Memory.above (a + 1) ((c, u) :: rest) = true := by
          simp only [Memory.above, Bool.and_eq_true, decide_eq_true_eq]
          exact ⟨by omega, Memory.above_mono hab (by omega)⟩
        simp [Memory.wf, ha, hv, this, hc, hu, hab, hw]
    · next hnl =>
      split
      · next hac =>
        subst hac
        split
        · exact hw
        · next hv => simp [Memory.wf, ha, hv, hab, hw]
      · next hne =>
        have := Memory.above_set d v hab (show c + 1 ≤ a by omega)
        simp [Memory.wf, hc, hu, this, ih hw]

/-- Reading back a store, over a canonical memory. -/
theorem Memory.get_set_self (d : Word) {top : Nat} {m : Mem} (a : Nat) (v : Word) (h : Memory.wf d top m = true) :
    Memory.get d (Memory.set d m a v) a = v := by
  induction m with
  | nil => unfold Memory.set; split <;> simp_all [Memory.get]
  | cons e rest ih =>
    obtain ⟨c, u⟩ := e
    simp only [Memory.wf, Bool.and_eq_true, decide_eq_true_eq] at h
    obtain ⟨⟨⟨hc, hu⟩, hab⟩, hw⟩ := h
    unfold Memory.set
    split
    · next hlt =>
      split
      · next hv =>
        have hne : a ≠ c := by omega
        simp only [Memory.get, hne, if_false]
        rw [Memory.get_of_above d hab (by omega), hv]
      · simp [Memory.get]
    · split
      · next hac =>
        subst hac
        split
        · next hv => rw [Memory.get_of_above d hab (by omega), hv]
        · simp [Memory.get]
      · next hne => simp only [Memory.get, hne, if_false]; exact ih hw

/-- What an in-range store leaves at each address. -/
theorem peek_poke {s : State} (h : s.Inv) (a v b : Word) :
    (s.poke a v).peek b = if b = a then v else s.peek b := by
  split
  · next e => subst e; exact Memory.get_set_self _ _ _ h
  · next e =>
    exact Memory.get_set_of_ne _ _ _ fun hn => e (BitVec.eq_of_toNat_eq hn)

/-- Storing at an address leaves every other word as it was. -/
theorem peek_poke_of_ne (s : State) (v : Word) {a b : Word} (h : b ≠ a) : (s.poke a v).peek b = s.peek b :=
  Memory.get_set_of_ne _ _ _ fun hn => h (BitVec.eq_of_toNat_eq hn)

/-- The invariant is about the parameters and the memory only. -/
theorem Inv_congr {s t : State} (hc : t.cfg = s.cfg) (hm : t.mem = s.mem) : t.Inv ↔ s.Inv := by
  simp only [State.Inv, hc, hm]

/-- An in-range store keeps the invariant. -/
theorem Inv_poke {s : State} (h : s.Inv) {a : Word} (v : Word) (ha : s.inRange a = true) : (s.poke a v).Inv := by
  refine Memory.wf_set _ v h ?_
  simpa [State.inRange] using ha

end Sys2Proof.Machine
end

