-- ==== Sys2Proof/Laws/Ops.lean ====
section
/-! SUPPORT. One spec lemma per shared operation: what a memory access, a part of an instruction and a fetch can do. -/

namespace Sys2Proof.Machine

@[simp] theorem andThen_ok {α β : Type} (a : α) (s : State) (f : α → State → Part β) :
    (Part.ok a s).andThen f = f a s := rfl

@[simp] theorem andThen_raised {α β : Type} (e : CoreFault) (s : State) (f : α → State → Part β) :
    (Part.raised e s).andThen f = .raised e s := rfl

@[simp] theorem finish_ok (n : Nat) (s : State) : (Part.ok n s).finish = .next (complete n s) := rfl

@[simp] theorem finish_raised (e : CoreFault) (s : State) : (Part.raised (α := Nat) e s).finish = .next (takeFault e s) :=
  rfl

/-- A finished part is always a next state. -/
theorem finish_next (x : Part Nat) : ∃ t, x.finish = .next t := by cases x <;> exact ⟨_, rfl⟩

/-- A read in range gives the word and is traced. -/
theorem memRead_inRange {a : Word} {s : State} (h : s.inRange a = true) :
    memRead a s = .ok (s.peek a) (s.traced [readEvent s a]) := by
  simp only [memRead, h, if_true]; rfl

/-- A read out of range raises and changes nothing. -/
theorem memRead_outOfRange {a : Word} {s : State} (h : s.inRange a = false) :
    memRead a s = .raised (.addressRange a) s := by
  simp only [memRead, h]; rfl

/-- A write in range is traced and stores the masked word. -/
theorem memWrite_inRange {a : Word} {s : State} (v : Int) (h : s.inRange a = true) :
    memWrite a v s = .ok () ((s.traced [⟨.write, a, BitVec.ofInt 16 v⟩]).poke a (BitVec.ofInt 16 v)) := by
  simp only [memWrite, h, if_true]; rfl

/-- A write out of range raises and changes nothing. -/
theorem memWrite_outOfRange {a : Word} {s : State} (v : Int) (h : s.inRange a = false) :
    memWrite a v s = .raised (.addressRange a) s := by
  simp only [memWrite, h]; rfl

/-- Two rounds of events are one round. -/
theorem traced_traced (s : State) (es fs : List TraceEvent) : (s.traced es).traced fs = s.traced (fs ++ es) := by
  cases s with
  | mk cfg acc or pc cr ptr mem status tracer result => cases tracer <;> simp [State.traced]

/-- A fetch in range: the word, PC advanced, the read traced. -/
theorem fetch_inRange {s : State} (h : s.inRange s.pc = true) : fetch s = .ok (s.peek s.pc) (atDispatch s) := by
  rw [fetch, memRead_inRange h]; rfl

/-- A fetch out of range raises before any state changes. -/
theorem fetch_outOfRange {s : State} (h : s.inRange s.pc = false) : fetch s = .raised (.addressRange s.pc) s := by
  simp [fetch, memRead_outOfRange h]

/-- Everything one step of a running core can do. -/
theorem step_running {s : State} (h : s.status = .running) :
    step s =
      if s.inRange s.pc = true then
        match decode s.cfg (s.peek s.pc) with
        | .noHandler => noHandler (s.peek s.pc) s.pc (atDispatch s)
        | .instr i => exec i (atDispatch s)
      else .next (takeFault (.addressRange s.pc) s) := by
  by_cases hr : s.inRange s.pc = true
  · simp only [step, h, fetch_inRange hr, hr, if_true]; all_goals rfl
  · simp only [step, h, fetch_outOfRange (by simpa using hr), hr]; all_goals rfl

/-- Only a running core steps. -/
theorem running_of_step {s t : State} (h : step s = .next t) : s.status = .running := by
  unfold step at h
  split at h
  · cases h
  · cases h
  · assumption

end Sys2Proof.Machine
end

