-- ==== Sys2Proof/Laws/Operands.lean ====
section
/-! SUPPORT. What the operand resolver can do, said once: it ends as the formulas of Safety.lean say when its accesses are
in range, and whatever happens it touches only PTR, OR and the trace. -/

namespace Sys2Proof.Machine

/-- N is zero-extended (R76). -/
theorem setWidth_direct (n : BitVec 11) : n.setWidth 16 = BitVec.ofNat 16 n.toNat := by
  apply BitVec.eq_of_toNat_eq; simp

/-- The 15-bit address of an extension word as a remainder (R65). -/
theorem ofNat_mod_eq_extTarget (x : Word) : BitVec.ofNat 16 (x.toNat % 32768) = extTarget x := by
  apply BitVec.eq_of_toNat_eq
  have h := Nat.and_two_pow_sub_one_eq_mod x.toNat 15
  simp [extTarget] at h ⊢
  omega

/-- An increment as a sum modulo 2^16 (R88). -/
theorem ofNat_add_one (x : Word) : BitVec.ofNat 16 (x.toNat + 1) = x + 1#16 := by
  apply BitVec.eq_of_toNat_eq; simp

/-- A decrement as a sum modulo 2^16 (R88). -/
theorem ofNat_add_65535 (x : Word) : BitVec.ofNat 16 (x.toNat + 65535) = x - 1#16 := by
  apply BitVec.eq_of_toNat_eq
  simp [BitVec.toNat_sub]
  omega

/-- The pieces of state no operand resolution touches, raised or not. -/
structure ResolverFrame (s t : State) : Prop where
  cfg : t.cfg = s.cfg
  acc : t.acc = s.acc
  pc : t.pc = s.pc
  cr : t.cr = s.cr
  mem : t.mem = s.mem
  status : t.status = s.status
  result : t.result = s.result

/-- A frame of nothing. -/
theorem ResolverFrame.rfl (s : State) : ResolverFrame s s := ⟨.refl _, .refl _, .refl _, .refl _, .refl _, .refl _, .refl _⟩

/-- Frames compose. -/
theorem ResolverFrame.trans {s t u : State} (h : ResolverFrame s t) (k : ResolverFrame t u) : ResolverFrame s u :=
  ⟨k.cfg.trans h.cfg, k.acc.trans h.acc, k.pc.trans h.pc, k.cr.trans h.cr, k.mem.trans h.mem,
    k.status.trans h.status, k.result.trans h.result⟩

/-- A memory read is in the frame, and moves no pointer and not OR. -/
theorem memRead_frame (a : Word) (s : State) :
    ResolverFrame s (memRead a s).state ∧ (memRead a s).state.ptr = s.ptr ∧ (memRead a s).state.or = s.or := by
  cases h : s.inRange a
  · rw [memRead_outOfRange h]; exact ⟨.rfl s, rfl, rfl⟩
  · rw [memRead_inRange h]; exact ⟨⟨rfl, rfl, rfl, rfl, rfl, rfl, rfl⟩, rfl, rfl⟩

/-- Full resolution of an operand whose accesses are in range (R75 to R81, R84, R86). -/
theorem resolve_ready {op : Operand} {pc0 : Word} {s : State} (w : Word) (h : operandReady op pc0 s = true) :
    resolve op w pc0 s =
      .ok ⟨operandValue op pc0 s, operandAddr op pc0 s, op.mode s.cfg, modeCycles op s⟩ (afterResolve op pc0 s) := by
  cases hm : op.mode s.cfg <;>
    simp only [operandReady, targetReady, notReserved, usesExt, operandAddr, hm, Bool.not_false, Bool.not_true,
      Bool.true_or, Bool.false_or, Bool.true_and, Bool.and_true, Bool.and_eq_true, Bool.false_eq_true] at h <;>
    simp only [resolve, operandValue, operandAddr, modeCycles, afterResolve, pointersAfter, operandEvents, extEvents,
      usesExt, hm, pointer_incPointer_self, extAddr]
  case direct n => rw [memRead_inRange h]; rfl
  case immediate => rw [memRead_inRange h]; rfl
  case ptr p => rw [memRead_inRange h]; rfl
  case ptrInc p => rw [memRead_inRange (s := incPointer p s) h]; rfl
  case ptrDec p => rw [memRead_inRange h]; rfl
  case wordDirect =>
    rw [memRead_inRange h.1]
    simp only [andThen_ok, extTarget, extWord] at h ⊢
    rw [memRead_inRange (s := s.traced _) h.2]
    simp only [andThen_ok, traced_traced]
    rfl

/-- Address-only resolution when the extension word, if any, is in range (R87). -/
theorem resolveAddr_ready {op : Operand} {pc0 : Word} {s : State} (w : Word) (h : targetReady op pc0 s = true) :
    resolveAddr op w pc0 s =
      .ok ⟨match operandAddr op pc0 s with | some a => .addr a | none => .literal (extWord pc0 s), op.mode s.cfg,
        modeCycles op s⟩ (afterResolveAddr op pc0 s) := by
  cases hm : op.mode s.cfg <;>
    simp only [targetReady, notReserved, usesExt, hm, Bool.not_false, Bool.not_true, Bool.true_or, Bool.false_or,
      Bool.true_and, Bool.false_and, Bool.false_eq_true] at h <;>
    simp only [resolveAddr, operandAddr, modeCycles, afterResolveAddr, pointersAfter, extEvents, usesExt, hm,
      pointer_incPointer_self, extAddr]
  case direct n => simp
  case immediate => rw [memRead_inRange h]; rfl
  case ptr p => simp
  case ptrInc p => simp; rfl
  case ptrDec p => simp; rfl
  case wordDirect => rw [memRead_inRange h]; rfl

/-- Full resolution that cannot finish raises the first fault in the order of accesses (R89, R122). -/
theorem resolve_raises {op : Operand} {pc0 : Word} {s : State} (w : Word) (h : operandReady op pc0 s = false) :
    resolve op w pc0 s = .raised (operandFault op w pc0 s) (afterRaise op pc0 s) := by
  cases hm : op.mode s.cfg <;>
    simp only [operandReady, targetReady, notReserved, usesExt, operandAddr, hm, Bool.not_false, Bool.not_true,
      Bool.true_or, Bool.false_or, Bool.true_and, Bool.and_true, Bool.and_eq_false_iff] at h <;>
    simp only [resolve, operandFault, targetFault, targetReady, notReserved, afterRaise, operandAddr, usesExt, hm,
      pointer_incPointer_self, extAddr, Bool.not_false, Bool.not_true, Bool.true_or, Bool.false_or, Bool.true_and,
      Bool.false_and, if_true]
  case direct n => rw [memRead_outOfRange h]; rfl
  case immediate => rw [memRead_outOfRange h]; simp [h]
  case ptr p => rw [memRead_outOfRange h]; rfl
  case ptrInc p => rw [memRead_outOfRange (s := incPointer p s) h]; rfl
  case ptrDec p => rw [memRead_outOfRange h]; rfl
  case wordDirect =>
    cases hx : s.inRange (pc0 + 1#16)
    · rw [memRead_outOfRange hx]; rfl
    · rw [memRead_inRange hx]
      simp only [hx, Bool.true_eq_false, false_or, andThen_ok, extTarget, extWord, if_true] at h ⊢
      rw [memRead_outOfRange (s := s.traced _) h]
      rfl
  all_goals rfl

/-- Address-only resolution that cannot finish raises and changes nothing (R87). -/
theorem resolveAddr_raises {op : Operand} {pc0 : Word} {s : State} (w : Word) (h : targetReady op pc0 s = false) :
    resolveAddr op w pc0 s = .raised (targetFault op w pc0 s) s := by
  cases hm : op.mode s.cfg <;>
    simp only [targetReady, notReserved, usesExt, hm, Bool.not_false, Bool.not_true, Bool.true_or, Bool.false_or,
      Bool.true_and, Bool.true_eq_false] at h <;>
    simp only [resolveAddr, targetFault, hm, extAddr]
  case immediate => rw [memRead_outOfRange h]; rfl
  case wordDirect => rw [memRead_outOfRange h]; rfl

/-- A finished full resolution is in the resolver's frame. -/
theorem afterResolve_frame (op : Operand) (pc0 : Word) (s : State) : ResolverFrame s (afterResolve op pc0 s) :=
  ⟨rfl, rfl, rfl, rfl, rfl, rfl, rfl⟩

/-- A finished address-only resolution is in the resolver's frame. -/
theorem afterResolveAddr_frame (op : Operand) (pc0 : Word) (s : State) :
    ResolverFrame s (afterResolveAddr op pc0 s) := ⟨rfl, rfl, rfl, rfl, rfl, rfl, rfl⟩

/-- A raise leaves the state in the resolver's frame, and OR as it was. -/
theorem afterRaise_frame (op : Operand) (pc0 : Word) (s : State) :
    ResolverFrame s (afterRaise op pc0 s) ∧ (afterRaise op pc0 s).or = s.or := by
  unfold afterRaise
  split
  · exact ⟨⟨rfl, rfl, rfl, rfl, rfl, rfl, rfl⟩, rfl⟩
  · split
    · exact ⟨⟨rfl, rfl, rfl, rfl, rfl, rfl, rfl⟩, rfl⟩
    · exact ⟨.rfl s, rfl⟩
  all_goals exact ⟨.rfl s, rfl⟩

@[simp] theorem afterResolve_acc (op : Operand) (pc0 : Word) (s : State) : (afterResolve op pc0 s).acc = s.acc := rfl

@[simp] theorem afterResolve_cr (op : Operand) (pc0 : Word) (s : State) : (afterResolve op pc0 s).cr = s.cr := rfl

@[simp] theorem afterResolve_cfg (op : Operand) (pc0 : Word) (s : State) : (afterResolve op pc0 s).cfg = s.cfg := rfl

@[simp] theorem afterResolveAddr_acc (op : Operand) (pc0 : Word) (s : State) :
    (afterResolveAddr op pc0 s).acc = s.acc := rfl

@[simp] theorem afterResolveAddr_cfg (op : Operand) (pc0 : Word) (s : State) :
    (afterResolveAddr op pc0 s).cfg = s.cfg := rfl

/-- Where an instruction runs as R105 says, the machine's own pc0 is the address of its opcode word. -/
theorem opcodeAddr_executing {i : Instr} {pc0 : Word} {s : State} (h : ExecutingAt i pc0 s) : opcodeAddr i s = pc0 := by
  unfold ExecutingAt at h
  simp [opcodeAddr, h]

/-- An instruction that reads its operand, whole: it completes or raises (R90, R107, R109). -/
theorem withOperand_eq (i : Instr) (op : Operand) (f : Word → State → State) (s : State) :
    withOperand i op f s =
      if operandReady op (opcodeAddr i s) s = true then
        .next (complete (modeCycles op s)
          (f (operandValue op (opcodeAddr i s) s) (afterResolve op (opcodeAddr i s) s)))
      else
        .next (takeFault (operandFault op (encode s.cfg i) (opcodeAddr i s) s) (afterRaise op (opcodeAddr i s) s)) := by
  unfold withOperand
  split
  · next h => rw [resolve_ready _ h]; rfl
  · next h => rw [resolve_raises _ (by simpa using h)]; rfl

/-- An instruction that uses its target, whole. -/
theorem withTarget_eq (i : Instr) (op : Operand) (f : Target → State → Part Unit) (s : State) :
    withTarget i op f s =
      if targetReady op (opcodeAddr i s) s = true then
        ((f (match operandAddr op (opcodeAddr i s) s with
            | some a => .addr a
            | none => .literal (extWord (opcodeAddr i s) s)) (afterResolveAddr op (opcodeAddr i s) s)).andThen
          fun _ t => .ok (modeCycles op s) t).finish
      else .next (takeFault (targetFault op (encode s.cfg i) (opcodeAddr i s) s) s) := by
  unfold withTarget
  split
  · next h => rw [resolveAddr_ready _ h]; rfl
  · next h => rw [resolveAddr_raises _ (by simpa using h)]; rfl

end Sys2Proof.Machine
end

