-- ==== Sys2Proof/Laws/Exec.lean ====
section
/-! SUPPORT. What each instruction and each step can do, said once; the statements' proofs cite these and unfold no
meaning. -/

namespace Sys2Proof.Machine

/-- Every instruction answers a next state (a fault is a next state whose STATUS is Faulted). -/
theorem exec_next (i : Instr) (s : State) : ∃ t, exec i s = .next t := by
  cases i with
  | halt k => exact ⟨_, rfl⟩
  | sub op | lda op | sto op | add op | cmp op | and op | neq op | jmp op => exact finish_next _

/-- STO on its target: the store, or the fault of an immediate or of an address out of range (R96). -/
theorem stoEffect_addr_inRange {w pc0 ea : Word} {s : State} (h : s.inRange ea = true) :
    stoEffect w pc0 (.addr ea) s = .ok () ((s.traced [⟨.write, ea, s.acc⟩]).poke ea s.acc) := by
  have hv : BitVec.ofInt 16 (s.acc.toNat : Int) = s.acc := by simp
  rw [stoEffect, memWrite_inRange _ h, hv]

/-- STO at an address out of range raises and changes nothing (R96). -/
theorem stoEffect_addr_outOfRange {w pc0 ea : Word} {s : State} (h : s.inRange ea = false) :
    stoEffect w pc0 (.addr ea) s = .raised (.addressRange ea) s := by
  rw [stoEffect, memWrite_outOfRange _ h]

/-- JMP on its target (R100). -/
theorem jmpEffect_eq (t : Target) (s : State) :
    jmpEffect t s = .ok () { s with pc := match t with | .addr ea => ea | .literal v => v } := by
  cases t <;> rfl

/-! ### Pointers -/

/-- A pointer that the operand's mode does not move is as before a finished resolution. -/
theorem pointersAfter_of_ne {op : Operand} {s : State} {q : BitVec 8} (h1 : op.mode s.cfg ≠ .ptrInc q)
    (h2 : op.mode s.cfg ≠ .ptrDec q) : (pointersAfter op s)[q.toNat] = s.pointer q := by
  unfold pointersAfter
  cases hm : op.mode s.cfg with
  | ptrInc p =>
    have hne : p.toNat ≠ q.toNat := fun e => h1 (by rw [hm, BitVec.eq_of_toNat_eq e])
    simp [State.pointer, hne]
  | ptrDec p =>
    have hne : p.toNat ≠ q.toNat := fun e => h2 (by rw [hm, BitVec.eq_of_toNat_eq e])
    simp [State.pointer, hne]
  | direct n | immediate | ptr p | wordDirect | reservedR | reservedSubMode => rfl

/-- A pointer that the operand's mode does not increment is as before a raise. -/
theorem afterRaise_pointer_of_ne {op : Operand} {pc0 : Word} {s : State} {q : BitVec 8}
    (h : op.mode s.cfg ≠ .ptrInc q) : (afterRaise op pc0 s).pointer q = s.pointer q := by
  unfold afterRaise
  cases hm : op.mode s.cfg with
  | ptrInc p =>
    have hne : p.toNat ≠ q.toNat := fun e => h (by rw [hm, BitVec.eq_of_toNat_eq e])
    simp [State.pointer, hne]
  | wordDirect => simp only; split <;> rfl
  | direct n | immediate | ptr p | ptrDec p | reservedR | reservedSubMode => rfl

/-! ### What one instruction can do -/

/-- What the effect of an instruction that reads an operand leaves alone: everything but ACC and the flags C, Z, S, V. -/
structure QuietEffect (f : Word → State → State) : Prop where
  cfg : ∀ v s, (f v s).cfg = s.cfg
  mem : ∀ v s, (f v s).mem = s.mem
  pc : ∀ v s, (f v s).pc = s.pc
  status : ∀ v s, (f v s).status = s.status
  ptr : ∀ v s, (f v s).ptr = s.ptr
  or : ∀ v s, (f v s).or = s.or
  tracer : ∀ v s, (f v s).tracer = s.tracer
  flagI : ∀ v s, (f v s).cr.i = s.cr.i
  flagM : ∀ v s, (f v s).cr.m = s.cr.m
  flagF : ∀ v s, (f v s).cr.f = s.cr.f

/-- Everything an instruction can do to the pieces of state that outlive it, on every path. -/
structure InstrFrame (i : Instr) (s t : State) : Prop where
  cfg : t.cfg = s.cfg
  flagI : t.cr.i = s.cr.i
  flagM : t.cr.m = s.cr.m
  flagF : t.cr.f = s.cr.f
  inv : s.Inv → t.Inv
  ending : t.status = s.status ∧ (∃ op, i.operand? = some op ∧ t.result = some (.continue_ (modeCycles op s))) ∨
    (∃ k, i = .halt k) ∧ t.status = .halted ∧ t.result = some .halt ∨
    ∃ f, t.status = .faulted f ∧ t.result = some (.fault f) ∧
      t.acc = s.acc ∧ t.or = s.or ∧ t.cr = s.cr ∧ t.mem = s.mem
  mem : (∃ op, i = .sto op) ∨ t.mem = s.mem
  pc : (∃ op, i = .jmp op) ∨ t.pc = s.pc
  pointers : ∀ q, (∀ op, i.operand? = some op → op.mode s.cfg ≠ .ptrInc q ∧ op.mode s.cfg ≠ .ptrDec q) →
    t.pointer q = s.pointer q

/-- A fault that leaves the state as it was but for the trace is in the frame. -/
theorem InstrFrame.of_fault {i : Instr} {s u : State} (f : CoreFault) (h : ResolverFrame s u) (ho : u.or = s.or)
    (hp : ∀ q, (∀ op, i.operand? = some op → op.mode s.cfg ≠ .ptrInc q ∧ op.mode s.cfg ≠ .ptrDec q) →
      u.pointer q = s.pointer q) : InstrFrame i s (takeFault f u) where
  cfg := h.cfg
  flagI := congrArg (·.i) h.cr
  flagM := congrArg (·.m) h.cr
  flagF := congrArg (·.f) h.cr
  inv := (Inv_congr (s := s) (t := takeFault f u) h.cfg h.mem).2
  ending := .inr (.inr ⟨f, rfl, rfl, h.acc, ho, h.cr, h.mem⟩)
  mem := .inr h.mem
  pc := .inr h.pc
  pointers := hp

/-- An instruction that reads an operand is in the frame. -/
theorem withOperand_frame {i : Instr} {op : Operand} {f : Word → State → State} {s t : State} (hf : QuietEffect f)
    (ho : i.operand? = some op) (h : withOperand i op f s = .next t) : InstrFrame i s t := by
  rw [withOperand_eq] at h
  split at h
  · cases h
    exact
      { cfg := hf.cfg _ _
        flagI := hf.flagI _ _
        flagM := hf.flagM _ _
        flagF := hf.flagF _ _
        inv := (Inv_congr (s := s) (hf.cfg _ (afterResolve op (opcodeAddr i s) s)) (hf.mem _ _)).2
        ending := .inl ⟨hf.status _ _, op, ho, rfl⟩
        mem := .inr (hf.mem _ _)
        pc := .inr (hf.pc _ _)
        pointers := fun q hq => by
          rw [← pointersAfter_of_ne (hq op ho).1 (hq op ho).2]
          simp only [State.pointer, complete_ptr, hf.ptr]
          rfl }
  · cases h
    have hr := afterRaise_frame op (opcodeAddr i s) s
    exact .of_fault _ hr.1 hr.2 fun q hq => afterRaise_pointer_of_ne (hq op ho).1

/-- What every path of STO leaves alone besides the frame. -/
theorem execSto_frame {op : Operand} {s t : State} (h : execSto op s = .next t) :
    InstrFrame (.sto op) s t ∧ t.acc = s.acc ∧ t.or = s.or ∧ t.cr = s.cr := by
  unfold execSto at h
  rw [withTarget_eq] at h
  have hr : ResolverFrame s (afterResolveAddr op (opcodeAddr (.sto op) s) s) := afterResolveAddr_frame _ _ s
  have hp : ∀ q, (∀ op', (Instr.sto op).operand? = some op' → op'.mode s.cfg ≠ .ptrInc q ∧ op'.mode s.cfg ≠ .ptrDec q) →
      (afterResolveAddr op (opcodeAddr (.sto op) s) s).pointer q = s.pointer q :=
    fun q hq => pointersAfter_of_ne (hq op rfl).1 (hq op rfl).2
  split at h
  · cases ha : operandAddr op (opcodeAddr (.sto op) s) s with
    | none =>
      simp only [ha, stoEffect] at h
      cases h
      exact ⟨.of_fault _ hr rfl hp, rfl, rfl, rfl⟩
    | some ea =>
      simp only [ha] at h
      cases hin : (afterResolveAddr op (opcodeAddr (.sto op) s) s).inRange ea
      · rw [stoEffect_addr_outOfRange hin] at h
        cases h
        exact ⟨.of_fault _ hr rfl hp, rfl, rfl, rfl⟩
      · rw [stoEffect_addr_inRange hin] at h
        cases h
        exact
          ⟨{ cfg := rfl
             flagI := rfl
             flagM := rfl
             flagF := rfl
             inv := fun hi => Inv_poke (s := (afterResolveAddr op (opcodeAddr (.sto op) s) s).traced _) hi _ hin
             ending := .inl ⟨rfl, op, rfl, rfl⟩
             mem := .inl ⟨op, rfl⟩
             pc := .inr rfl
             pointers := hp }, rfl, rfl, rfl⟩
  · cases h
    exact ⟨.of_fault _ (.rfl s) rfl fun _ _ => rfl, rfl, rfl, rfl⟩

/-- What every path of JMP leaves alone besides the frame. -/
theorem execJmp_frame {op : Operand} {s t : State} (h : execJmp op s = .next t) :
    InstrFrame (.jmp op) s t ∧ t.acc = s.acc ∧ t.or = s.or ∧ t.cr = s.cr ∧ t.mem = s.mem := by
  unfold execJmp at h
  rw [withTarget_eq] at h
  split at h
  · rw [jmpEffect_eq] at h
    cases h
    exact
      ⟨{ cfg := rfl
         flagI := rfl
         flagM := rfl
         flagF := rfl
         inv := (Inv_congr rfl rfl).2
         ending := .inl ⟨rfl, op, rfl, rfl⟩
         mem := .inr rfl
         pc := .inl ⟨op, rfl⟩
         pointers := fun q hq => pointersAfter_of_ne (hq op rfl).1 (hq op rfl).2 }, rfl, rfl, rfl, rfl⟩
  · cases h
    exact ⟨.of_fault _ (.rfl s) rfl fun _ _ => rfl, rfl, rfl, rfl, rfl⟩

theorem subEffect_quiet : QuietEffect subEffect := by constructor <;> intros <;> rfl

theorem addEffect_quiet : QuietEffect addEffect := by constructor <;> intros <;> rfl

theorem cmpEffect_quiet : QuietEffect cmpEffect := by constructor <;> intros <;> rfl

theorem ldaEffect_quiet : QuietEffect ldaEffect := by constructor <;> intros <;> rfl

theorem andEffect_quiet : QuietEffect andEffect := by constructor <;> intros <;> rfl

theorem neqEffect_quiet : QuietEffect neqEffect := by constructor <;> intros <;> rfl

/-- Everything an instruction can do, for each of them. -/
theorem exec_frame {i : Instr} {s t : State} (h : exec i s = .next t) : InstrFrame i s t := by
  cases i with
  | sub op => exact withOperand_frame subEffect_quiet rfl h
  | add op => exact withOperand_frame addEffect_quiet rfl h
  | cmp op => exact withOperand_frame cmpEffect_quiet rfl h
  | lda op => exact withOperand_frame ldaEffect_quiet rfl h
  | and op => exact withOperand_frame andEffect_quiet rfl h
  | neq op => exact withOperand_frame neqEffect_quiet rfl h
  | sto op => exact (execSto_frame h).1
  | jmp op => exact (execJmp_frame h).1
  | halt k =>
    cases h
    exact
      { cfg := rfl
        flagI := rfl
        flagM := rfl
        flagF := rfl
        inv := (Inv_congr rfl rfl).2
        ending := .inr (.inl ⟨⟨k, rfl⟩, rfl, rfl⟩)
        mem := .inr rfl
        pc := .inr rfl
        pointers := fun _ _ => rfl }

/-! ### What one step can do -/

/-- A step whose word has a handler is the handler at dispatch. -/
theorem step_instr {s : State} {i : Instr} (hs : s.status = .running) (hr : s.inRange s.pc = true)
    (hd : decode s.cfg (s.peek s.pc) = .instr i) : step s = exec i (atDispatch s) := by
  rw [step_running hs, if_pos hr, hd]

/-- A step whose word has no handler faults at dispatch. -/
theorem step_noHandler {s : State} (hs : s.status = .running) (hr : s.inRange s.pc = true)
    (hd : decode s.cfg (s.peek s.pc) = .noHandler) :
    step s = .next (takeFault (.unimplementedOpcode .noHandler (s.peek s.pc) s.pc) (atDispatch s)) := by
  rw [step_running hs, if_pos hr, hd]
  rfl

/-- A step whose fetch is out of range faults and changes nothing else. -/
theorem step_fetchFault {s : State} (hs : s.status = .running) (hr : s.inRange s.pc = false) :
    step s = .next (takeFault (.addressRange s.pc) s) := by
  rw [step_running hs, if_neg (by simp [hr])]

/-- A running core always has a step. -/
theorem step_next {s : State} (h : s.status = .running) : ∃ t, step s = .next t := by
  cases hr : s.inRange s.pc
  · exact ⟨_, step_fetchFault h hr⟩
  · cases hd : decode s.cfg (s.peek s.pc) with
    | noHandler => exact ⟨_, step_noHandler h hr hd⟩
    | instr i => rw [step_instr h hr hd]; exact exec_next i _

/-- The three ways a step comes to its next state. -/
theorem step_cases {s t : State} (h : step s = .next t) :
    s.status = .running ∧
      (s.inRange s.pc = false ∧ t = takeFault (.addressRange s.pc) s ∨
        s.inRange s.pc = true ∧ decode s.cfg (s.peek s.pc) = .noHandler ∧
          t = takeFault (.unimplementedOpcode .noHandler (s.peek s.pc) s.pc) (atDispatch s) ∨
        s.inRange s.pc = true ∧ ∃ i, decode s.cfg (s.peek s.pc) = .instr i ∧ exec i (atDispatch s) = .next t) := by
  have hs := running_of_step h
  refine ⟨hs, ?_⟩
  cases hr : s.inRange s.pc
  · rw [step_fetchFault hs hr] at h
    exact .inl ⟨rfl, (Host.Outcome.next.inj h).symm⟩
  · cases hd : decode s.cfg (s.peek s.pc) with
    | noHandler =>
      rw [step_noHandler hs hr hd] at h
      exact .inr (.inl ⟨rfl, rfl, (Host.Outcome.next.inj h).symm⟩)
    | instr i =>
      rw [step_instr hs hr hd] at h
      exact .inr (.inr ⟨rfl, i, rfl, h⟩)

/-- At dispatch of a decoded word, the machine's own pc0 is the address of the word. -/
theorem opcodeAddr_atDispatch {s : State} {i : Instr} (h : encode s.cfg i = s.peek s.pc) :
    opcodeAddr i (atDispatch s) = s.pc := by
  simp [opcodeAddr, h]

end Sys2Proof.Machine
end

