-- ==== Sys2Proof/Laws/Flags.lean ====
section
/-! SUPPORT. The flag computations as arithmetic over the wide result (41_arithmetic.md R92, R93). -/

namespace Sys2Proof.Machine

/-- `r[16]` is bit 16 of the two's-complement representation of r (00_scope.md R18). -/
theorem bit16_eq (r : Int) : bit16 r = decide (r / 65536 % 2 = 1) := by
  simp only [bit16, BitVec.msb_eq_decide, BitVec.toNat_ofInt]
  congr 1
  simp only [eq_iff_iff]
  omega

/-- Z says that the masked result is 0. -/
theorem isZero_narrow (r : Int) : isZero (narrow r) = decide (r % 65536 = 0) := by
  rw [Bool.eq_iff_iff]
  simp only [isZero, narrow, beq_iff_eq, decide_eq_true_eq]
  rw [← BitVec.toNat_inj, BitVec.toNat_ofInt]
  simp
  omega

/-- S is bit 15. -/
theorem sign_eq (res : Word) : sign res = res.getLsbD 15 := BitVec.msb_eq_getLsbD_last res

/-- SUB's V over bits 15 (R92). -/
theorem subOverflow_eq (a v res : Word) :
    subOverflow a v res = decide (a.getLsbD 15 ≠ v.getLsbD 15 ∧ res.getLsbD 15 = a.getLsbD 15) := by
  simp only [subOverflow, BitVec.msb_eq_getLsbD_last]
  cases a.getLsbD 15 <;> cases v.getLsbD 15 <;> cases res.getLsbD 15 <;> simp_all

/-- ADD's V over bits 15 (R93). -/
theorem addOverflow_eq (a v res : Word) :
    addOverflow a v res = decide (a.getLsbD 15 = v.getLsbD 15 ∧ res.getLsbD 15 ≠ a.getLsbD 15) := by
  simp only [addOverflow, BitVec.msb_eq_getLsbD_last]
  cases a.getLsbD 15 <;> cases v.getLsbD 15 <;> cases res.getLsbD 15 <;> simp_all

/-- SUB's wide result lies in [-65536, 65535] (R91). -/
theorem subWide_range (a v : Word) (m c : Bool) : -65536 ≤ subWide a v m c ∧ subWide a v m c ≤ 65535 := by
  have := a.isLt
  have := v.isLt
  unfold subWide flagInt
  cases m <;> cases c <;> simp <;> omega

/-- ADD's wide result lies in [0, 131071] (R93). -/
theorem addWide_range (a v : Word) (m c : Bool) : 0 ≤ addWide a v m c ∧ addWide a v m c ≤ 131071 := by
  have := a.isLt
  have := v.isLt
  unfold addWide flagInt
  cases m <;> cases c <;> simp <;> omega

end Sys2Proof.Machine
end

