-- ==== Sys2Proof/Laws/PerInstr.lean ====
section
/-! SUPPORT. The statements made per instruction, one lemma per constructor of Instr. -/

namespace Sys2Proof.Laws.WordFields

/-- What the fields of an instruction's opcode word read back as: the function code the configuration gives it and its
operand fields, and so its length (30_encoding.md R62 to R64, R67); for HALT, the pattern under the mask when the
instruction is well formed and HALT_MATCH lies inside HALT_MASK (00_scope.md R15). -/
def Statement (i : Instr) : Prop :=
  ∀ cfg : Config,
    match i.operand? with
    | some op => cfg.fcodeOf i = some (functionCode (encode cfg i)) ∧ decodeOperand (encode cfg i) = op ∧
        wordLength (encode cfg i) = op.words
    | none => i.wf cfg = true → cfg.haltMatch &&& cfg.haltMask = cfg.haltMatch → isHalt cfg (encode cfg i) = true

/-- The common shape of the memory-reference instructions. -/
theorem of_fields (f : BitVec 4) (op : Operand) :
    some f = some (functionCode (encodeFields f op)) ∧ decodeOperand (encodeFields f op) = op ∧
      wordLength (encodeFields f op) = op.words :=
  ⟨congrArg some (functionCode_encodeFields f op).symm, decodeOperand_encodeFields f op, wordLength_encodeFields f op⟩

theorem sub (op : Operand) : Statement (.sub op) := fun cfg => of_fields cfg.fcode.sub op

theorem halt (k : Word) : Statement (.halt k) := by
  intro cfg hwf hm
  have hk : k &&& cfg.haltMask = 0#16 := by
    cases hp : cfg.profile <;> simpa [Instr.wf, Profile.admits, hp] using hwf
  have hsplit : (cfg.haltMatch ||| k) &&& cfg.haltMask = (cfg.haltMatch &&& cfg.haltMask) ||| (k &&& cfg.haltMask) := by
    ext i hi
    simp only [BitVec.getElem_and, BitVec.getElem_or, Bool.and_or_distrib_right]
  simp [isHalt, encode, hsplit, hk, hm]

theorem lda (op : Operand) : Statement (.lda op) := fun cfg => of_fields cfg.fcode.lda op

theorem sto (op : Operand) : Statement (.sto op) := fun cfg => of_fields cfg.fcode.sto op

theorem add (op : Operand) : Statement (.add op) := fun cfg => of_fields cfg.fcode.add op

theorem cmp (op : Operand) : Statement (.cmp op) := fun cfg => of_fields cfg.fcode.cmp op

theorem and (op : Operand) : Statement (.and op) := fun cfg => of_fields cfg.fcode.and op

theorem neq (op : Operand) : Statement (.neq op) := fun cfg => of_fields cfg.fcode.neq op

theorem jmp (op : Operand) : Statement (.jmp op) := fun cfg => of_fields cfg.fcode.jmp op

end Sys2Proof.Laws.WordFields
end

