-- ==== Sys2Proof/Tests/Slice0.lean ====
section
/-! SUPPORT. The model's own tests: the checks of WellFormed, words written out from 30_encoding.md, single steps whose
results are those of 95_test_vectors.md (named by their ids there), and for every statement of the Obligations file that
has hypotheses a concrete state that meets them. -/

namespace Sys2Proof.Tests

open Sys2Proof.Machine

/-! ### Helpers -/

/-- The spec's defaults under a profile, with a cost of its own for each addressing mode. The costs are the test's; the
spec gives none (00_scope.md R11). -/
def testConfig (profile : Profile) : Config :=
  { Config.specDefault with profile := profile, cycles := ⟨1, 2, 3, 4, 5, 6⟩ }

/-- The reset state of a configuration with some words and pointers loaded, an accumulator and a PC. -/
def launch (cfg : Config) (pc acc : Word) (words : List (Word × Word)) (pointers : List (BitVec 8 × Word)) : State :=
  let s := words.foldl (fun s e => s.poke e.1 e.2) { State.reset with cfg := cfg, pc := pc, acc := acc }
  pointers.foldl (fun s e => s.setPointer e.1 e.2) s

/-- Under the Core profile. -/
def core (pc acc : Word) (words : List (Word × Word)) (pointers : List (BitVec 8 × Word)) : State :=
  launch (testConfig .core) pc acc words pointers

/-- Under the Provisional profile. -/
def prov (pc acc : Word) (words : List (Word × Word)) (pointers : List (BitVec 8 × Word)) : State :=
  launch (testConfig .provisional) pc acc words pointers

/-- A state with the flags C, Z, S and V set. -/
def withFlags (c z s v : Bool) (t : State) : State := { t with cr := { t.cr with c := c, z := z, s := s, v := v } }

/-- The flags as the vectors list them. -/
def czsv (cr : CondReg) : List Bool := [cr.c, cr.z, cr.s, cr.v]

/-- Some fields of the state after one step; none where there is no next state. -/
def after {α : Type} (s : State) (view : State → α) : Option α := (stepMove s).map view

/-! ### WellFormed: what each check refuses -/

theorem test_wf_refuses_profile : (Instr.add (.formatA 1#11)).wf Config.specDefault = false := by decide

theorem test_wf_refuses_halt_bits : (Instr.halt 0x0400#16).wf Config.specDefault = false := by decide

theorem test_wf_accepts : (Instr.halt 0x03FF#16).wf Config.specDefault = true ∧
    (Instr.sub (.formatB true 3#2 0#8)).wf Config.specDefault = true ∧
    (Instr.add (.formatA 1#11)).wf Config.model = true := by decide

theorem test_config_wf_refuses_equal_codes :
    Config.wf { Config.specDefault with fcode := { FCodes.specDefault with add := 0xA#4 } } = false := by decide

theorem test_config_wf_refuses_match_outside_mask :
    Config.wf { Config.specDefault with haltMatch := 0x0401#16 } = false := by decide

theorem test_config_wf_refuses_halt_inside_code :
    Config.wf { Config.specDefault with haltMatch := 0xA400#16 } = false := by decide

theorem test_mode_wf_refuses : (Mode.direct 0#11).wf = false ∧ (Mode.ptr 0#8).wf = false ∧ (Mode.ptrInc 0#8).wf = false ∧
    (Mode.ptrDec 0#8).wf = false ∧ Mode.reservedR.wf = false ∧ Mode.reservedSubMode.wf = false := by decide

/-! ### Decode: words written out field by field (30_encoding.md R62 to R64, R69, R70, R73) -/

/-- F = 1010, I = 1, R = 0, SM = 10, P = 3: `SUB /3-`. -/
theorem test_decode_sub : decode Config.specDefault 0b1010_1_0_10_00000011#16 = .instr (.sub (.formatB false 2#2 3#8)) := by
  decide

/-- F = 0000, bits 11 and 10 are 0 and 1, k = 0x155: HALT. -/
theorem test_decode_halt : decode Config.specDefault 0b0000_0_1_0101010101#16 = .instr (.halt 0x155#16) := by decide

/-- F = 1000, I = 0, N = 0: `LDA #v`. -/
theorem test_decode_lda : decode Config.model 0b1000_0_00000000000#16 = .instr (.lda (.formatA 0#11)) := by decide

/-- F = 0100, I = 0, N = 0x20: `STO 0x20`. -/
theorem test_decode_sto : decode Config.model 0b0100_0_00000100000#16 = .instr (.sto (.formatA 0x20#11)) := by decide

/-- F = 1001, I = 0, N = 2047: `ADD 2047`. -/
theorem test_decode_add : decode Config.model 0b1001_0_11111111111#16 = .instr (.add (.formatA 2047#11)) := by decide

/-- F = 1011, I = 1, R = 1, SM = 11, P = 255. -/
theorem test_decode_cmp : decode Config.model 0b1011_1_1_11_11111111#16 = .instr (.cmp (.formatB true 3#2 255#8)) := by
  decide

/-- F = 1100, I = 1, R = 0, SM = 00, P = 0: `AND .W a`. -/
theorem test_decode_and : decode Config.model 0b1100_1_0_00_00000000#16 = .instr (.and (.formatB false 0#2 0#8)) := by decide

/-- F = 1101, I = 0, N = 1: `NEQ 1`. -/
theorem test_decode_neq : decode Config.model 0b1101_0_00000000001#16 = .instr (.neq (.formatA 1#11)) := by decide

/-- F = 1111, I = 1, R = 0, SM = 01, P = 3: `JMP /3+`. -/
theorem test_decode_jmp : decode Config.model 0b1111_1_0_01_00000011#16 = .instr (.jmp (.formatB false 1#2 3#8)) := by decide

/-- The function codes R70's table leaves without a handler, and a word of F = 0 outside the HALT pattern. -/
theorem test_decode_refuses : [0x0000, 0x0800, 0x1000, 0x2000, 0x3000, 0x5000, 0x6000, 0x7000, 0xE000].all
    (fun w => decode Config.model (BitVec.ofNat 16 w) = .noHandler) = true := by decide

/-- The Core profile refuses the seven Provisional codes (R69). -/
theorem test_decode_core_refuses : [0x4000, 0x8000, 0x9000, 0xB000, 0xC000, 0xD000, 0xF000].all
    (fun w => decode Config.specDefault (BitVec.ofNat 16 w) = .noHandler) = true := by decide

/-- R73: `SUB #5`, `SUB /3+` and `SUB .W 0x7FFF` are assembled as the table says. -/
theorem test_assemble :
    assemble Config.specDefault (.sub (.formatA 0#11)) 5#16 = [0xA000#16, 0x0005#16] ∧
    (Mode.toOperand Config.specDefault (.ptrInc 3#8)).map (fun op => assemble Config.specDefault (.sub op) 0#16) =
      some [0xA903#16] ∧
    (Mode.toOperand Config.specDefault .wordDirect).map (fun op => assemble Config.specDefault (.sub op) 0x7FFF#16) =
      some [0xA800#16, 0x7FFF#16] := by decide

/-! ### Arithmetic and flags: the tables of 95_test_vectors.md, 2.1 and 2.2 -/

/-- V-SUB-1 to V-SUB-12: A, v, M and C before; ACC and C Z S V after. -/
theorem test_sub_vectors :
    ([(0x0003, 0x0005, false, false, 0x0002, [false, false, false, false]),
      (0x0005, 0x0003, false, false, 0xFFFE, [true, false, true, false]),
      (0x8000, 0x7FFF, false, false, 0xFFFF, [true, false, true, true]),
      (0x0000, 0x0000, false, false, 0x0000, [false, true, false, false]),
      (0x0001, 0x0000, false, false, 0xFFFF, [true, false, true, false]),
      (0xFFFF, 0x7FFF, false, false, 0x8000, [true, false, true, true]),
      (0x0001, 0x8000, false, false, 0x7FFF, [false, false, false, true]),
      (0x8000, 0x8000, false, false, 0x0000, [false, true, false, false]),
      (0xFFFF, 0x0000, false, false, 0x0001, [true, false, false, false]),
      (0x7FFF, 0xFFFF, false, false, 0x8000, [false, false, true, false])] ++
     [(0x0003, 0x0005, true, true, 0x0002, [false, false, false, false]),
      (0x0003, 0x0005, true, false, 0x0001, [false, false, false, false]),
      (0x0000, 0x0000, true, false, 0xFFFF, [true, false, true, false]),
      (0xFFFF, 0x0000, true, false, 0x0000, [true, true, false, false]),
      (0xFFFF, 0x0000, true, true, 0x0001, [true, false, false, false]),
      (0x0000, 0x0000, true, true, 0x0000, [false, true, false, false]),
      (0x0003, 0x0005, false, true, 0x0002, [false, false, false, false])]).all
    (fun (a, v, m, c, res, flags) =>
      let r := subWide (BitVec.ofNat 16 a) (BitVec.ofNat 16 v) m c
      decide (narrow r = BitVec.ofNat 16 res ∧
        czsv (CondReg.cleared.afterSub (BitVec.ofNat 16 a) (BitVec.ofNat 16 v) r) = flags)) = true := by decide

/-- V-ADD-1 to V-ADD-8. -/
theorem test_add_vectors :
    [(0x1234, 0xEDCC, false, false, 0x0000, [true, true, false, false]),
     (0xFFFF, 0x0001, false, false, 0x0000, [true, true, false, false]),
     (0x7FFF, 0x0001, false, false, 0x8000, [false, false, true, true]),
     (0x8000, 0x8000, false, false, 0x0000, [true, true, false, true]),
     (0xFFFF, 0x0000, true, true, 0x0000, [true, true, false, false]),
     (0x0000, 0x0000, false, false, 0x0000, [false, true, false, false]),
     (0x7FFF, 0x7FFF, true, true, 0xFFFF, [false, false, true, true]),
     (0x8000, 0xFFFF, false, false, 0x7FFF, [true, false, false, true])].all
    (fun (a, v, m, c, res, flags) =>
      let r := addWide (BitVec.ofNat 16 a) (BitVec.ofNat 16 v) m c
      decide (narrow r = BitVec.ofNat 16 res ∧
        czsv (CondReg.cleared.afterAdd (BitVec.ofNat 16 a) (BitVec.ofNat 16 v) r) = flags)) = true := by decide

/-! ### One step of each instruction -/

/-- E-4, by `SUB 0x100`: ACC, OR, PC, the flags and the reported cost. -/
theorem test_sub_borrow :
    after (core 0 5 [(0, 0xA100), (0x100, 3)] []) (fun t => (t.acc, t.or, t.pc, czsv t.cr, t.result)) =
      some (0xFFFE, 3, 1, [true, false, true, false], some (.continue_ 1)) := by decide

/-- V-SUB-13, the high word: M = 1 and C = 1 set by the host, A = 0, v = 1. -/
theorem test_sub_chained :
    after { core 0 0 [(0, 0xA000), (1, 1)] [] with cr := { CondReg.cleared with m := true, c := true } }
        (fun t => (t.acc, czsv t.cr, t.cr.m)) =
      some (1, [false, false, false, false], true) := by decide

/-- V-ADD-4, by `ADD #0x8000`. -/
theorem test_add_overflow :
    after (prov 0 0x8000 [(0, 0x9000), (1, 0x8000)] []) (fun t => (t.acc, t.or, t.pc, czsv t.cr)) =
      some (0, 0x8000, 2, [true, true, false, true]) := by decide

/-- V-CMP-4, by `CMP #0x7FFF`: ACC stays. -/
theorem test_cmp_keeps_acc :
    after (prov 0 0x8000 [(0, 0xB000), (1, 0x7FFF)] []) (fun t => (t.acc, t.or, czsv t.cr)) =
      some (0x8000, 0x7FFF, [true, false, true, true]) := by decide

/-- V-LDA-1: C and V stay 1. -/
theorem test_lda_zero :
    after (withFlags true false false true (prov 0 0x1234 [(0, 0x8000), (1, 0)] [])) (fun t => (t.acc, t.or, czsv t.cr)) =
      some (0, 0, [true, true, false, true]) := by decide

/-- V-AND-1. -/
theorem test_and :
    after (withFlags true false false false (prov 0 0xFFFF [(0, 0xC000), (1, 0x00F0)] [])) (fun t => (t.acc, czsv t.cr)) =
      some (0x00F0, [true, false, false, false]) := by decide

/-- V-NEQ-2. -/
theorem test_neq :
    after (withFlags true false false true (prov 0 0xA5A5 [(0, 0xD000), (1, 0xA5A5)] [])) (fun t => (t.acc, czsv t.cr)) =
      some (0, [true, true, false, true]) := by decide

/-- V-STO-2: `STO /3+` stores at the incremented pointer. -/
theorem test_sto_increment :
    after (prov 0 0x0055 [(0, 0x4903)] [(3, 0x01FF)]) (fun t => (t.peek 0x200, t.peek 0x1FF, t.pointer 3, t.pc)) =
      some (0x0055, 0xEEEE, 0x0200, 1) := by decide

/-- V-FAULT-14: `STO /3-` decrements before its write faults. -/
theorem test_sto_fault :
    after (prov 0 1 [(0, 0x4A03)] [(3, 0x8000)]) (fun t => (t.status, t.pointer 3, t.pc)) =
      some (.faulted (.addressRange 0x8000), 0x7FFF, 1) := by decide

/-- V-JMP-1: `JMP /3+` jumps to the incremented pointer. -/
theorem test_jmp_increment :
    after (prov 0 0 [(0, 0xF903)] [(3, 0x0FFF)]) (fun t => (t.pc, t.pointer 3, t.status)) =
      some (0x1000, 0x1000, .running) := by decide

/-- V-JMP-3: `JMP #0x9000` jumps above MEMTOP without a fault. -/
theorem test_jmp_literal :
    after (prov 0 0 [(0, 0xF000), (1, 0x9000)] []) (fun t => (t.pc, t.status, t.or)) = some (0x9000, .running, 0) := by decide

/-- V-HALT-3: HALT at MEMTOP. -/
theorem test_halt_at_top :
    after (core 0x7FFF 9 [(0x7FFF, 0x0400)] []) (fun t => (t.status, t.pc, t.acc, t.result)) =
      some (.halted, 0x8000, 9, some .halt) := by decide

/-! ### The addressing modes, through one SUB each (95_test_vectors.md 2.4) -/

/-- V-ADDR-3, Direct with the largest N. -/
theorem test_mode_direct :
    after (core 0 0 [(0, 0xA7FF), (0x7FF, 3)] []) (fun t => (t.acc, t.or, t.pc)) = some (3, 3, 1) := by decide

/-- V-ADDR-2, Immediate. -/
theorem test_mode_immediate :
    after (core 0 0 [(0, 0xA000), (1, 0x8001)] []) (fun t => (t.acc, t.or, t.pc, t.result)) =
      some (0x8001, 0x8001, 2, some (.continue_ 2)) := by decide

/-- V-ADDR-11, `/P` with R = 1 ignored. -/
theorem test_mode_pointer :
    after (launch { testConfig .core with rPolicy := .ignore } 0 0 [(0, 0xAC03), (0x100, 10)] [(3, 0x100)])
        (fun t => (t.acc, t.pc, t.pointer 3)) =
      some (10, 1, 0x100) := by decide

/-- V-ADDR-9, `/P+` whose pointer wraps. -/
theorem test_mode_increment :
    after (core 0 0 [(0, 0xA901)] [(1, 0xFFFF)]) (fun t => (t.acc, t.pointer 1, t.pc)) = some (0xA901, 0, 1) := by decide

/-- V-ADDR-10, `/P-` whose pointer wraps. -/
theorem test_mode_decrement :
    after (core 0 0 [(0, 0xAA01)] [(1, 0)]) (fun t => (t.acc, t.pointer 1, t.pc)) = some (0xAA01, 0xFFFF, 1) := by decide

/-- V-ADDR-7, WordDirect with bit 15 ignored. -/
theorem test_mode_word_direct :
    after (core 0 0 [(0, 0xA800), (1, 0xFFFF), (0x7FFF, 2)] []) (fun t => (t.acc, t.pc)) = some (2, 2) := by decide

/-- E-6: PTR[3] = 100, one resolution, the value is MEM[101]. -/
theorem test_mode_increment_reads_new_address :
    after (core 0 0 [(0, 0xA903), (100, 1), (101, 9)] [(3, 100)]) (fun t => (t.or, t.pointer 3)) = some (9, 101) := by decide

/-- R75 and R87 return the mode beside the other results. -/
theorem test_resolution_returns_mode :
    (∃ v ea n u, resolve (.formatB false 1#2 3#8) 0xA903 0 (core 0 0 [] [(3, 100)]) = .ok ⟨v, ea, .ptrInc 3#8, n⟩ u) ∧
    ∃ t n u, resolveAddr (.formatB false 0#2 0#8) 0x4800 0 (core 0 0 [(1, 5)] []) = .ok ⟨t, .wordDirect, n⟩ u :=
  ⟨⟨_, _, _, _, rfl⟩, _, _, _, rfl⟩

/-- The trace of a `.W` step (20_memory.md R50, 40_addressing.md R85), the latest event first. -/
theorem test_trace_order :
    after { core 0 0 [(0, 0xA800), (1, 0x10), (0x10, 4)] [] with tracer := some [] } (fun t => t.tracer) =
      some (some [⟨.read, 0x10, 4⟩, ⟨.read, 1, 0x10⟩, ⟨.read, 0, 0xA800⟩]) := by decide

/-! ### Faults (95_test_vectors.md 2.5) -/

/-- V-FAULT-1: the increment stays. -/
theorem test_fault_increment :
    after (core 0 0 [(0, 0xA901)] [(1, 0x7FFF)]) (fun t => (t.status, t.pointer 1, t.pc)) =
      some (.faulted (.addressRange 0x8000), 0x8000, 1) := by decide

/-- V-FAULT-2: the read faults before the decrement. -/
theorem test_fault_decrement :
    after (core 0 0 [(0, 0xAA01)] [(1, 0x8000)]) (fun t => (t.status, t.pointer 1)) =
      some (.faulted (.addressRange 0x8000), 0x8000) := by decide

/-- V-FAULT-4: the extension word lies above MEMTOP. -/
theorem test_fault_extension :
    after (core 0x7FFF 0 [(0x7FFF, 0xA000)] []) (fun t => (t.status, t.pc)) =
      some (.faulted (.addressRange 0x8000), 0x8001) := by decide

/-- V-FAULT-5 and V-FAULT-6: the reserved sub-mode and the reserved bit. -/
theorem test_fault_reserved :
    after (core 0 0 [(0, 0xAB03)] []) (fun t => t.status) =
      some (.faulted (.unimplementedOpcode .reservedSubMode 0xAB03 0)) ∧
    after (core 0 0 [(0, 0xAC03)] []) (fun t => t.status) =
      some (.faulted (.unimplementedOpcode .reservedR 0xAC03 0)) := by decide

/-- V-FAULT-7: a word without a handler, two words long. -/
theorem test_fault_no_handler :
    after (core 0 0 [(0, 0x1000)] []) (fun t => (t.status, t.pc)) =
      some (.faulted (.unimplementedOpcode .noHandler 0x1000 0), 2) := by decide

/-- V-FAULT-11: the fetch itself. -/
theorem test_fault_fetch :
    after (core 0x8000 0 [] []) (fun t => (t.status, t.pc)) = some (.faulted (.addressRange 0x8000), 0x8000) := by decide

/-- V-FAULT-12: `STO #5`. -/
theorem test_fault_no_effective_address :
    after (prov 0 1 [(0, 0x4000), (1, 5)] []) (fun t => (t.status, t.pc, t.peek 1)) =
      some (.faulted (.unimplementedOpcode .noEffectiveAddress 0x4000 0), 2, 5) := by decide

/-! ### Memory, reset and the host's entry points -/

/-- E-1: `write(10, 0x1FFFF)` then `read(10)` gives 0xFFFF. -/
theorem test_write_masks : ((memWrite 10 0x1FFFF (core 0 0 [] [])).state).peek 10 = 0xFFFF := by decide

/-- Writing SENTINEL takes the word out of the list: equal memories are equal data. -/
theorem test_memory_canonical : ((core 0 0 [(5, 1), (3, 2), (5, 0xEEEE)] []).mem) = [(3, 2#16)] := by decide

/-- R132: reset after a fault. -/
theorem test_reset_after_fault :
    after (core 0x8000 7 [] []) (fun t => ((resetOp t).acc, (resetOp t).pc, (resetOp t).status)) =
      some (0, 0, .running) := by decide

/-- A table word is placed and run as the first instruction after reset: `LDA #0x1234`, its literal in the second word. -/
theorem test_with_fetch_word :
    (stepMove (State.reset.withFetchWord 32 0x12348000)).map (fun t => (t.acc, t.pc)) = some (0x1234, 2) ∧
    decodeTableWord 32 0x12348000 = some (.lda (.formatA 0#11)) := by decide

/-! ### Witnesses: concrete inputs that meet all hypotheses of a statement together -/

/-- A Core state at `SUB 0x100` and one at `STO 0x20` under Provisional, with a tracer attached. -/
def subState : State := { core 0 5 [(0, 0xA100), (0x100, 3)] [] with tracer := some [] }
def stoState : State := { prov 0 0x1234 [(0, 0x4020)] [] with tracer := some [] }

/-- A configuration whose memory ends at `top`. -/
def toppedAt (top : Word) : Config := { testConfig .provisional with memTop := top }

theorem witness_StepKeepsTheInvariant :
    subState.Inv ∧ (∃ t, step subState = .next t) ∧ stoState.Inv ∧ ∃ t, step stoState = .next t ∧ t.mem ≠ stoState.mem :=
  ⟨by unfold State.Inv; decide, ⟨_, rfl⟩, by unfold State.Inv; decide, _, rfl, by decide⟩

/-- One for every transaction of R115. -/
theorem witness_TransactionsKeepTheInvariant :
    subState.Inv ∧
    [Driver.Action.load [(0x7FFF, 1), (0, 2)] (Vector.replicate 256 7), .reset, .singleStep, .setAcc 1, .setOr 1, .setPc 1,
      .setFlag .m true, .setPointer 3 1, .setMem 0x7FFF 1, .attachTracer, .observe, .stop].all
      (fun a => (Driver.apply a subState).isSome) = true :=
  ⟨by unfold State.Inv; decide, by decide⟩

/-- A well-formed instruction of every constructor. -/
theorem witness_EncodeThenDecode :
    Config.model.wf = true ∧
    [Instr.sub (.formatA 0x7FF#11), .halt 0x3FF#16, .lda (.formatA 0#11), .sto (.formatB true 3#2 0#8),
      .add (.formatB false 0#2 255#8), .cmp (.formatB false 1#2 1#8), .and (.formatB false 2#2 1#8),
      .neq (.formatB true 0#2 1#8), .jmp (.formatA 1#11)].all (fun i => i.wf Config.model) = true := by decide

theorem witness_DecodeThenEncode :
    decode Config.specDefault 0x07FF#16 = .instr (.halt 0x3FF#16) ∧
    decode Config.model 0xFFFF#16 = .instr (.jmp (.formatB true 3#2 255#8)) := by decide

theorem witness_NotationSelectsItsMode :
    (Mode.ptrDec 255#8).toOperand Config.model = some (.formatB false 2#2 255#8) ∧
    (Operand.formatB false 2#2 255#8).mode Config.model = .ptrDec 255#8 ∧ (Mode.ptrDec 255#8).wf = true := by decide

/-- A one-word and a two-word form of each format; two words that differ in F, R and SM only. -/
theorem witness_LengthComesFromTheMode :
    (Operand.formatA 1#11).mode Config.model ≠ .reservedR ∧ (Operand.formatA 0#11).mode Config.model ≠ .reservedR ∧
    (Operand.formatB false 3#2 1#8).mode Config.model ≠ .reservedR ∧
    (Operand.formatB false 3#2 0#8).mode Config.model ≠ .reservedR ∧
    (0xA900#16).getLsbD 11 = (0x1E00#16).getLsbD 11 ∧ (0xA900#16).extractLsb' 0 8 = (0x1E00#16).extractLsb' 0 8 ∧
    (0xA001#16).getLsbD 11 = (0x1001#16).getLsbD 11 ∧
    (0xA001#16).extractLsb' 0 11 = (0x1001#16).extractLsb' 0 11 := by decide

theorem witness_ProfilesAgreeOnCoreInstructions :
    Config.model.wf = true ∧
    decode { Config.model with profile := .core } 0xA000#16 = .instr (.sub (.formatA 0#11)) ∧
    decode { Config.model with profile := .provisional } 0xA000#16 = .instr (.sub (.formatA 0#11)) := by decide

/-- The last address of memory and the first above it; the extreme value of an address where all 2^16 exist. -/
theorem witness_MemoryReadRule :
    (0x7FFF#16).toNat ≤ subState.cfg.memTop.toNat ∧ subState.cfg.memTop.toNat < (0x8000#16).toNat ∧
    (0xFFFF#16).toNat ≤ (launch (toppedAt 0xFFFF) 0 0 [] []).cfg.memTop.toNat := by decide

theorem witness_MemoryWriteRule :
    subState.Inv ∧ (0x7FFF#16).toNat ≤ subState.cfg.memTop.toNat ∧ subState.cfg.memTop.toNat < (0x8000#16).toNat ∧
    ∃ t, step stoState = .next t ∧ t.mem ≠ stoState.mem :=
  ⟨by unfold State.Inv; decide, by decide, by decide, _, rfl, by decide⟩

theorem witness_ReadAfterWrite :
    subState.Inv ∧ (∃ t, memWrite 0x7FFF (-1) subState = .ok () t ∧ (0x7FFF#16).toNat ≤ subState.cfg.memTop.toNat) ∧
    subState.cfg.memTop.toNat < (0x8000#16).toNat :=
  ⟨by unfold State.Inv; decide, ⟨_, rfl, by decide⟩, by decide⟩

theorem witness_StoreIsSeenByTheNextFetch : subState.Inv ∧ ∃ t, memWrite subState.pc 0x10400 subState = .ok () t :=
  ⟨by unfold State.Inv; decide, _, rfl⟩

/-- The largest N at the top of memory, and one above it. -/
theorem witness_DirectOperand :
    2047#11 ≠ 0#11 ∧ (2047#11).toNat ≤ (launch (toppedAt 0x7FF) 0 0 [] []).cfg.memTop.toNat ∧
    (launch (toppedAt 0x7FE) 0 0 [] []).cfg.memTop.toNat < (2047#11).toNat := by decide

theorem witness_ImmediateOperand :
    (0x7FFE#16 + 1#16).toNat ≤ subState.cfg.memTop.toNat ∧ subState.cfg.memTop.toNat < (0x7FFF#16 + 1#16).toNat ∧
    (0xFFFF#16 + 1#16).toNat ≤ subState.cfg.memTop.toNat := by decide

/-- PTR[3] at the top of memory, and one above it; R = 0, and R = 1 under R_POLICY = Ignore. -/
theorem witness_PointerOperand :
    let s := core 0 0 [] [(3, 0x7FFF), (4, 0x8000)]
    (false = true → s.cfg.rPolicy = .ignore) ∧ 3#8 ≠ 0#8 ∧ 4#8 ≠ 0#8 ∧ s.cfg.subModes.get 0#2 = .ptr ∧
    (s.pointer 3#8).toNat ≤ s.cfg.memTop.toNat ∧ s.cfg.memTop.toNat < (s.pointer 4#8).toNat ∧
    (true = true → (launch { testConfig .core with rPolicy := .ignore } 0 0 [] []).cfg.rPolicy = .ignore) := by decide

/-- The increment lands on the top of memory, on the word above it, and wraps to 0. -/
theorem witness_PointerIncrementComesFirst :
    let s := core 0 0 [] [(3, 0x7FFE), (4, 0x7FFF), (255, 0xFFFF)]
    let ea (p : BitVec 8) : Word := BitVec.ofNat 16 ((s.pointer p).toNat + 1)
    (false = true → s.cfg.rPolicy = .ignore) ∧ 3#8 ≠ 0#8 ∧ 4#8 ≠ 0#8 ∧ 255#8 ≠ 0#8 ∧ s.cfg.subModes.get 1#2 = .ptrInc ∧
    (ea 3#8).toNat ≤ s.cfg.memTop.toNat ∧ s.cfg.memTop.toNat < (ea 4#8).toNat ∧
    (ea 255#8).toNat ≤ s.cfg.memTop.toNat := by decide

/-- PTR[3] at the top of memory, one above it, and a pointer that wraps. -/
theorem witness_PointerDecrementComesLast :
    let s := core 0 0 [] [(3, 0x7FFF), (4, 0x8000), (255, 0)]
    (false = true → s.cfg.rPolicy = .ignore) ∧ 3#8 ≠ 0#8 ∧ 4#8 ≠ 0#8 ∧ 255#8 ≠ 0#8 ∧ s.cfg.subModes.get 2#2 = .ptrDec ∧
    (s.pointer 3#8).toNat ≤ s.cfg.memTop.toNat ∧ s.cfg.memTop.toNat < (s.pointer 4#8).toNat ∧
    (s.pointer 255#8).toNat ≤ s.cfg.memTop.toNat := by decide

/-- Both words in memory; the address above it (MEMTOP below 0x7FFF); the extension word above it. -/
theorem witness_WordDirectOperand :
    let s := launch (toppedAt 0x0FFF) 0 0 [(1, 0x8FFF), (3, 0x1000)] []
    (false = true → s.cfg.rPolicy = .ignore) ∧
    (0#16 + 1#16).toNat ≤ s.cfg.memTop.toNat ∧ (s.peek (0#16 + 1#16)).toNat % 32768 ≤ s.cfg.memTop.toNat ∧
    (2#16 + 1#16).toNat ≤ s.cfg.memTop.toNat ∧ s.cfg.memTop.toNat < (s.peek (2#16 + 1#16)).toNat % 32768 ∧
    s.cfg.memTop.toNat < (0x0FFF#16 + 1#16).toNat := by decide

theorem witness_ReservedEncodingsFault :
    subState.cfg.rPolicy = .fault ∧ (false = true → subState.cfg.rPolicy = .ignore) ∧ 3#8 ≠ 0#8 ∧
    subState.cfg.subModes.get 3#2 = .reserved ∧
    (launch { testConfig .core with rPolicy := .ignore } 0 0 [] []).cfg.rPolicy = .ignore := by decide

/-- One operand for each clause. -/
theorem witness_AddressOnlyResolution :
    let c := subState.cfg
    (Operand.formatA 2047#11).mode c = .direct 2047#11 ∧ (Operand.formatB false 0#2 1#8).mode c = .ptr 1#8 ∧
    (Operand.formatB false 1#2 1#8).mode c = .ptrInc 1#8 ∧ (Operand.formatB false 2#2 1#8).mode c = .ptrDec 1#8 ∧
    (Operand.formatA 0#11).mode c = .immediate ∧ (Operand.formatB false 0#2 0#8).mode c = .wordDirect ∧
    (0x7FFE#16 + 1#16).toNat ≤ c.memTop.toNat ∧ c.memTop.toNat < (0x7FFF#16 + 1#16).toNat ∧
    usesExt (.formatA 0#11) subState = true := by decide

/-- A SUB that can read its operand and one that cannot. -/
theorem witness_SubtractRule :
    (ExecutingAt (.sub (.formatA 0x100#11)) 0 (atDispatch subState) ∧
      operandReady (.formatA 0x100#11) 0 (atDispatch subState) = true) ∧
    let s := atDispatch (core 0x7FFF 1 [(0x7FFF, 0xA000)] [])
    ExecutingAt (.sub (.formatA 0#11)) 0x7FFF s ∧ operandReady (.formatA 0#11) 0x7FFF s = false := by
  unfold ExecutingAt; decide

theorem witness_AddCompletes :
    let s := atDispatch (prov 0 1 [(0, 0x9803)] [(3, 0x7FFF)])
    ExecutingAt (.add (.formatB false 0#2 3#8)) 0 s ∧ operandReady (.formatB false 0#2 3#8) 0 s = true := by
  unfold ExecutingAt; decide

theorem witness_CompareCompletes :
    let s := atDispatch (prov 0 1 [(0, 0xB903)] [(3, 0x7FFE)])
    ExecutingAt (.cmp (.formatB false 1#2 3#8)) 0 s ∧ operandReady (.formatB false 1#2 3#8) 0 s = true := by
  unfold ExecutingAt; decide

theorem witness_MoveAndLogicComplete :
    let s (w : Word) := atDispatch (prov 0x7FFE 1 [(0x7FFE, w), (0x7FFF, 5)] [])
    let op : Operand := .formatA 0#11
    (ExecutingAt (.lda op) 0x7FFE (s 0x8000) ∧ operandReady op 0x7FFE (s 0x8000) = true) ∧
    (ExecutingAt (.and op) 0x7FFE (s 0xC000) ∧ operandReady op 0x7FFE (s 0xC000) = true) ∧
    (ExecutingAt (.neq op) 0x7FFE (s 0xD000) ∧ operandReady op 0x7FFE (s 0xD000) = true) := by
  unfold ExecutingAt; decide

/-- A store to the last word of memory. -/
theorem witness_StoreCompletes :
    let s := atDispatch (prov 0 1 [(0, 0x4A03)] [(3, 0x7FFF)])
    let op : Operand := .formatB false 2#2 3#8
    s.Inv ∧ ExecutingAt (.sto op) 0 s ∧ targetReady op 0 s = true ∧ operandAddr op 0 s = some 0x7FFF ∧
    (0x7FFF#16).toNat ≤ s.cfg.memTop.toNat := by
  unfold ExecutingAt State.Inv; decide

theorem witness_StoreFaults :
    (let s := atDispatch (prov 0x7FFE 1 [(0x7FFE, 0x4000)] [])
     ExecutingAt (.sto (.formatA 0#11)) 0x7FFE s ∧ (Operand.formatA 0#11).mode s.cfg = .immediate ∧
     (0x7FFE#16 + 1#16).toNat ≤ s.cfg.memTop.toNat) ∧
    (let s := atDispatch (prov 0 1 [(0, 0x4A03)] [(3, 0x8000)])
     let op : Operand := .formatB false 2#2 3#8
     ExecutingAt (.sto op) 0 s ∧ targetReady op 0 s = true ∧ operandAddr op 0 s = some 0x8000 ∧
     s.cfg.memTop.toNat < (0x8000#16).toNat) ∧
    (let s := atDispatch (prov 0x7FFF 1 [(0x7FFF, 0x4800)] [])
     ExecutingAt (.sto (.formatB false 0#2 0#8)) 0x7FFF s ∧ targetReady (.formatB false 0#2 0#8) 0x7FFF s = false) ∧
    (let s := atDispatch (prov 0 1 [(0, 0x4C03)] [])
     ExecutingAt (.sto (.formatB true 0#2 3#8)) 0 s ∧ targetReady (.formatB true 0#2 3#8) 0 s = false) ∧
    (let s := atDispatch (prov 0 1 [(0, 0x4B03)] [])
     ExecutingAt (.sto (.formatB false 3#2 3#8)) 0 s ∧ targetReady (.formatB false 3#2 3#8) 0 s = false) := by
  unfold ExecutingAt; decide

/-- A jump with an effective address and one with a literal. -/
theorem witness_JumpCompletes :
    (let s := atDispatch (prov 0 1 [(0, 0xF903)] [(3, 0xFFFF)])
     ExecutingAt (.jmp (.formatB false 1#2 3#8)) 0 s ∧ targetReady (.formatB false 1#2 3#8) 0 s = true) ∧
    (let s := atDispatch (prov 0x7FFE 1 [(0x7FFE, 0xF000), (0x7FFF, 0x9000)] [])
     ExecutingAt (.jmp (.formatA 0#11)) 0x7FFE s ∧ targetReady (.formatA 0#11) 0x7FFE s = true) := by
  unfold ExecutingAt; decide

/-- The extension word above MEMTOP, the reserved bit, the reserved sub-mode. -/
theorem witness_JumpFaults :
    (let s := atDispatch (prov 0x7FFF 1 [(0x7FFF, 0xF000)] [])
     ExecutingAt (.jmp (.formatA 0#11)) 0x7FFF s ∧ targetReady (.formatA 0#11) 0x7FFF s = false) ∧
    (let s := atDispatch (prov 0 1 [(0, 0xFC03)] [])
     ExecutingAt (.jmp (.formatB true 0#2 3#8)) 0 s ∧ targetReady (.formatB true 0#2 3#8) 0 s = false) ∧
    (let s := atDispatch (prov 0 1 [(0, 0xFB03)] [])
     ExecutingAt (.jmp (.formatB false 3#2 3#8)) 0 s ∧ targetReady (.formatB false 3#2 3#8) 0 s = false) := by
  unfold ExecutingAt; decide

/-- One for each way in which an operand cannot be read: the increment past the top, the extension word, a reserved
sub-mode. -/
theorem witness_UnreadableOperandFaults :
    (let s := atDispatch (core 0 1 [(0, 0xA901)] [(1, 0x7FFF)])
     ExecutingAt (.sub (.formatB false 1#2 1#8)) 0 s ∧ operandReady (.formatB false 1#2 1#8) 0 s = false) ∧
    (let s := atDispatch (prov 0x7FFF 1 [(0x7FFF, 0x8000)] [])
     ExecutingAt (.lda (.formatA 0#11)) 0x7FFF s ∧ operandReady (.formatA 0#11) 0x7FFF s = false) ∧
    (let s := atDispatch (prov 0 1 [(0, 0xDB01)] [])
     ExecutingAt (.neq (.formatB false 3#2 1#8)) 0 s ∧ operandReady (.formatB false 3#2 1#8) 0 s = false) := by
  unfold ExecutingAt; decide

/-- A completing and a faulting CMP, a pointer other than the operand's, and an LDA. -/
theorem witness_ReadingInstructionsFrame :
    (∃ t, exec (.cmp (.formatA 0x100#11)) (atDispatch subState) = .next t ∧ t.status = .running) ∧
    (∃ t, exec (.cmp (.formatB false 1#2 1#8)) (atDispatch (prov 0 1 [(0, 0xB901)] [(1, 0x7FFF)])) = .next t ∧
      t.status ≠ .running) ∧
    (Operand.formatB false 1#2 1#8).mode subState.cfg ≠ .ptrInc 2#8 ∧
    (Operand.formatB false 1#2 1#8).mode subState.cfg ≠ .ptrDec 2#8 ∧
    ∃ t, exec (.lda (.formatA 0x100#11)) (atDispatch subState) = .next t :=
  ⟨⟨_, rfl, by decide⟩, ⟨_, rfl, by decide⟩, by decide, by decide, _, rfl⟩

/-- A store that completes, one above MEMTOP, and one that names no address. -/
theorem witness_StoreFrame :
    (∃ t, exec (.sto (.formatA 0x20#11)) (atDispatch stoState) = .next t ∧ t.status = .running) ∧
    (∃ ea m n u, resolveAddr (.formatA 0x20#11) 0x4020 0 (atDispatch stoState) = .ok ⟨.addr ea, m, n⟩ u ∧ ea = 0x20) ∧
    (∃ ea m n u, resolveAddr (.formatB false 0#2 3#8) 0x4803 0 (atDispatch (prov 0 1 [(0, 0x4803)] [(3, 0x8000)])) =
      .ok ⟨.addr ea, m, n⟩ u ∧ stoState.cfg.memTop.toNat < ea.toNat) ∧
    resolveAddr (.formatB false 3#2 3#8) 0x4B03 0 (atDispatch stoState) =
      .raised (.unimplementedOpcode .reservedSubMode 0x4B03 0) (atDispatch stoState) :=
  ⟨⟨_, rfl, by decide⟩, ⟨_, _, _, _, rfl, rfl⟩, ⟨_, _, _, _, rfl, by decide⟩, rfl⟩

/-- A jump that completes, one that faults, and HALT. -/
theorem witness_ControlFrame :
    (∃ t, exec (.jmp (.formatA 8#11)) stoState = .next t ∧ t.status = .running) ∧
    (∃ t, exec (.jmp (.formatA 0#11)) (atDispatch (prov 0x7FFF 1 [(0x7FFF, 0xF000)] [])) = .next t ∧
      t.status = .faulted (.addressRange 0x8000) ∧ stoState.status = .running) ∧
    ∃ t, exec (.halt 0) stoState = .next t :=
  ⟨⟨_, rfl, by decide⟩, ⟨_, rfl, by decide, by decide⟩, _, rfl⟩

theorem witness_StepRunsTheDecodedInstruction :
    stoState.status = .running ∧ stoState.pc.toNat ≤ stoState.cfg.memTop.toNat ∧
    decode stoState.cfg (stoState.peek stoState.pc) = .instr (.sto (.formatA 0x20#11)) := by decide

theorem witness_FetchRule :
    subState.pc.toNat ≤ subState.cfg.memTop.toNat ∧
    (core 0x8000 0 [] []).status = .running ∧ (core 0x8000 0 [] []).cfg.memTop.toNat < (core 0x8000 0 [] []).pc.toNat ∧
    (core 0x7FFF 0 [] []).pc.toNat ≤ (core 0x7FFF 0 [] []).cfg.memTop.toNat := by decide

theorem witness_UnhandledWordFaults :
    let s := core 0 1 [(0, 0x8000)] []
    s.status = .running ∧ s.pc.toNat ≤ s.cfg.memTop.toNat ∧ decode s.cfg (s.peek s.pc) = .noHandler := by decide

/-- A state of each status. -/
theorem witness_OnlyARunningCoreSteps :
    subState.status = .running ∧ (takeHalt subState).status = .halted ∧
    (takeFault (.addressRange 0x8000) subState).status = .faulted (.addressRange 0x8000) := by decide

/-- A step that continues, one that halts and one that faults. -/
theorem witness_StepReportsItsOutcome :
    (∃ t, step subState = .next t ∧ t.status = .running) ∧
    (∃ t, step (core 0 0 [(0, 0x0400)] []) = .next t ∧ t.status = .halted) ∧
    ∃ t, step (core 0x8000 0 [] []) = .next t ∧ t.status = .faulted (.addressRange 0x8000) :=
  ⟨⟨_, rfl, by decide⟩, ⟨_, rfl, by decide⟩, _, rfl, by decide⟩

theorem witness_SequentialFlow :
    (∃ t, step subState = .next t) ∧ subState.pc.toNat ≤ subState.cfg.memTop.toNat ∧
    ∀ op, decode subState.cfg (subState.peek subState.pc) ≠ .instr (.jmp op) :=
  ⟨⟨_, rfl⟩, by decide, fun op h => by
    have hd : decode subState.cfg (subState.peek subState.pc) = .instr (.sub (.formatA 0x100#11)) := by decide
    rw [hd] at h; cases h⟩

/-- Faults of every branch: the fetch, the dispatch, SUB, STO and JMP. -/
theorem witness_WhoRaisesWhat :
    [core 0x8000 0 [] [], core 0 0 [] [], core 0 0 [(0, 0xAB03)] [], prov 0 1 [(0, 0x4000)] [],
      prov 0x7FFF 1 [(0x7FFF, 0xF000)] []].map (fun s => after s fun t => t.status) =
    [some (.faulted (.addressRange 0x8000)), some (.faulted (.unimplementedOpcode .noHandler 0xEEEE 0)),
      some (.faulted (.unimplementedOpcode .reservedSubMode 0xAB03 0)),
      some (.faulted (.unimplementedOpcode .noEffectiveAddress 0x4000 0)), some (.faulted (.addressRange 0x8000))] := by
  decide

theorem witness_FaultLeavesRegistersAndMemory :
    ∃ t, step (core 0 1 [(0, 0xA901)] [(1, 0x7FFF)]) = .next t ∧ t.status = .faulted (.addressRange 0x8000) :=
  ⟨_, rfl, by decide⟩

/-- A step from a state in which I, M and F are set. -/
theorem witness_StepKeepsControlFlags :
    ∃ t, step { subState with cr := ⟨true, false, false, false, false, true, true⟩ } = .next t ∧ t.cr.m = true :=
  ⟨_, rfl, by decide⟩

theorem witness_InterruptFlagHasNoEffect :
    (∃ t, step subState = .next t) ∧ step (takeHalt subState) = .fault .steppedWhileHalted := ⟨⟨_, rfl⟩, rfl⟩

theorem witness_UnreadRegistersDoNotSteer : ∃ t, step stoState = .next t := ⟨_, rfl⟩

theorem witness_PointerZeroIsNeverUsed : ∃ t, step (core 0 0 [(0, 0xA900), (1, 0x10)] []) = .next t := ⟨_, rfl⟩

theorem witness_OnePointerMovesByOne :
    ∃ t, step (core 0 0 [(0, 0xAA01)] [(1, 0)]) = .next t ∧ t.pointer 1#8 = 0xFFFF#16 := ⟨_, rfl, by decide⟩

theorem witness_TracingIsAnObserver : ∃ t, step subState = .next t := ⟨_, rfl⟩

/-- An image of the first and the last word of memory. -/
theorem witness_LaunchHoldsTheImage :
    (∀ e ∈ ([(0x7FFF#16, 1#16), (0#16, 0x0400#16)] : List (Word × Word)), e.1.toNat ≤ subState.cfg.memTop.toNat) ∧
    (([(0x7FFF#16, 1#16), (0#16, 0x0400#16)] : List (Word × Word)).map (·.1)).Nodup := by
  have h : subState.cfg.memTop = 0x7FFF#16 := rfl
  simp [h]

theorem witness_OnlyResetLeavesAStop :
    (takeHalt subState).status ≠ .running ∧ ∃ t, Driver.apply (.setAcc 1) (takeHalt subState) = some t :=
  ⟨by decide, _, rfl⟩

end Sys2Proof.Tests
end

/-! The flags I and F steer nothing (10_state.md R27, R33): every operation commutes with setting them, from the
operand resolver up to the step, and no step writes them. -/

namespace Sys2Proof.Machine

/-! ### The states that differ only in I and F -/

/-- The state with the flags I and F replaced. -/
def State.withFlagsIF (bi bf : Bool) (s : State) : State := { s with cr := { s.cr with i := bi, f := bf } }

/-! ### Parts of an instruction -/

/-- A part of an instruction whose states are all changed by `g`: the value or the fault stays. -/
def Part.mapState {α : Type} (g : State → State) : Part α → Part α
  | .ok a s => .ok a (g s)
  | .raised f s => .raised f (g s)

/-- A part can be changed by `g` before or after a part that commutes with `g`. -/
theorem andThen_mapState {α β : Type} {g : State → State} {k : α → State → Part β} (x : Part α)
    (hk : ∀ a u, k a (g u) = (k a u).mapState g) : (x.mapState g).andThen k = (x.andThen k).mapState g := by
  cases x with
  | ok a s => exact hk a s
  | raised f s => rfl

/-- How an instruction ends, with other flags I and F. -/
theorem finish_withFlagsIF {bi bf : Bool} {x : Part Nat} {t : State} (h : x.finish = .next t) :
    (x.mapState (State.withFlagsIF bi bf)).finish = .next (t.withFlagsIF bi bf) := by
  cases x <;> cases h <;> rfl

/-! ### The resolver -/

/-- The state a raise leaves, with other flags I and F. -/
theorem afterRaise_withFlagsIF (bi bf : Bool) (op : Operand) (pc0 : Word) (s : State) :
    afterRaise op pc0 (s.withFlagsIF bi bf) = (afterRaise op pc0 s).withFlagsIF bi bf := by
  have hc : (s.withFlagsIF bi bf).cfg = s.cfg := rfl
  unfold afterRaise
  rw [hc]
  cases op.mode s.cfg with
  | wordDirect =>
    simp only [apply_ite (State.withFlagsIF bi bf)]
    rfl
  | direct n | immediate | ptr p | ptrInc p | ptrDec p | reservedR | reservedSubMode => rfl

/-- Full resolution is blind to I and F. -/
theorem resolve_withFlagsIF (bi bf : Bool) (op : Operand) (w pc0 : Word) (s : State) :
    resolve op w pc0 (s.withFlagsIF bi bf) = (resolve op w pc0 s).mapState (State.withFlagsIF bi bf) := by
  cases h : operandReady op pc0 s
  · rw [resolve_raises w h, resolve_raises (s := s.withFlagsIF bi bf) w h, afterRaise_withFlagsIF]
    rfl
  · rw [resolve_ready w h, resolve_ready (s := s.withFlagsIF bi bf) w h]
    rfl

/-- Address-only resolution is blind to I and F. -/
theorem resolveAddr_withFlagsIF (bi bf : Bool) (op : Operand) (w pc0 : Word) (s : State) :
    resolveAddr op w pc0 (s.withFlagsIF bi bf) = (resolveAddr op w pc0 s).mapState (State.withFlagsIF bi bf) := by
  cases h : targetReady op pc0 s
  · rw [resolveAddr_raises w h, resolveAddr_raises (s := s.withFlagsIF bi bf) w h]
    rfl
  · rw [resolveAddr_ready w h, resolveAddr_ready (s := s.withFlagsIF bi bf) w h]
    rfl

/-- An instruction that reads its operand is blind to I and F when its effect is. -/
theorem withOperand_withFlagsIF {bi bf : Bool} {i : Instr} {op : Operand} {f : Word → State → State} {s t : State}
    (hf : ∀ v u, f v (u.withFlagsIF bi bf) = (f v u).withFlagsIF bi bf) (h : withOperand i op f s = .next t) :
    withOperand i op f (s.withFlagsIF bi bf) = .next (t.withFlagsIF bi bf) := by
  have hx := resolve_withFlagsIF bi bf op (encode s.cfg i) (opcodeAddr i s) s
  change ((resolve op (encode s.cfg i) (opcodeAddr i s) (s.withFlagsIF bi bf)).andThen _).finish = _
  rw [hx, andThen_mapState _ fun r u => congrArg (Part.ok r.cycles) (hf r.value u)]
  exact finish_withFlagsIF h

/-- An instruction that uses its target is blind to I and F when its effect is. -/
theorem withTarget_withFlagsIF {bi bf : Bool} {i : Instr} {op : Operand} {f : Target → State → Part Unit} {s t : State}
    (hf : ∀ a u, f a (u.withFlagsIF bi bf) = (f a u).mapState (State.withFlagsIF bi bf))
    (h : withTarget i op f s = .next t) :
    withTarget i op f (s.withFlagsIF bi bf) = .next (t.withFlagsIF bi bf) := by
  have hx := resolveAddr_withFlagsIF bi bf op (encode s.cfg i) (opcodeAddr i s) s
  change ((resolveAddr op (encode s.cfg i) (opcodeAddr i s) (s.withFlagsIF bi bf)).andThen _).finish = _
  rw [hx, andThen_mapState _ fun r u => by rw [hf]; exact andThen_mapState (f r.target u) fun _ _ => rfl]
  exact finish_withFlagsIF h

/-! ### The effects -/

/-- STO's effect is blind to I and F. -/
theorem stoEffect_withFlagsIF (bi bf : Bool) (w pc0 : Word) (a : Target) (s : State) :
    stoEffect w pc0 a (s.withFlagsIF bi bf) = (stoEffect w pc0 a s).mapState (State.withFlagsIF bi bf) := by
  cases a with
  | literal v => rfl
  | addr ea =>
    cases hr : s.inRange ea
    · rw [stoEffect_addr_outOfRange hr, stoEffect_addr_outOfRange (s := s.withFlagsIF bi bf) hr]; rfl
    · rw [stoEffect_addr_inRange hr, stoEffect_addr_inRange (s := s.withFlagsIF bi bf) hr]; rfl

/-- JMP's effect is blind to I and F. -/
theorem jmpEffect_withFlagsIF (bi bf : Bool) (a : Target) (s : State) :
    jmpEffect a (s.withFlagsIF bi bf) = (jmpEffect a s).mapState (State.withFlagsIF bi bf) := by
  cases a <;> rfl

/-! ### Instructions and steps -/

/-- Every instruction is blind to I and F. -/
theorem exec_withFlagsIF (bi bf : Bool) {i : Instr} {s t : State} (h : exec i s = .next t) :
    exec i (s.withFlagsIF bi bf) = .next (t.withFlagsIF bi bf) := by
  cases i with
  | sub op | add op | cmp op | lda op | and op | neq op => exact withOperand_withFlagsIF (fun _ _ => rfl) h
  | sto op => exact withTarget_withFlagsIF (stoEffect_withFlagsIF bi bf _ _) h
  | jmp op => exact withTarget_withFlagsIF (jmpEffect_withFlagsIF bi bf) h
  | halt k => cases h; rfl

/-- A step is blind to I and F. -/
theorem step_withFlagsIF (bi bf : Bool) {s t : State} (h : step s = .next t) :
    step (s.withFlagsIF bi bf) = .next (t.withFlagsIF bi bf) := by
  obtain ⟨hs, ⟨hr, rfl⟩ | ⟨hr, hd, rfl⟩ | ⟨hr, i, hd, he⟩⟩ := step_cases h
  · exact step_fetchFault (s := s.withFlagsIF bi bf) hs hr
  · exact step_noHandler (s := s.withFlagsIF bi bf) hs hr hd
  · exact (step_instr (s := s.withFlagsIF bi bf) hs hr hd).trans (exec_withFlagsIF bi bf he)

/-- No step writes the flags I, M and F, nor the parameters. -/
theorem step_keeps_controlFlags {s t : State} (h : step s = .next t) :
    t.cr.i = s.cr.i ∧ t.cr.m = s.cr.m ∧ t.cr.f = s.cr.f ∧ t.cfg = s.cfg := by
  obtain ⟨-, ⟨-, rfl⟩ | ⟨-, -, rfl⟩ | ⟨-, i, -, he⟩⟩ := step_cases h
  · exact ⟨rfl, rfl, rfl, rfl⟩
  · exact ⟨rfl, rfl, rfl, rfl⟩
  · have hf := exec_frame he
    exact ⟨hf.flagI, hf.flagM, hf.flagF, hf.cfg⟩

/-- The core has no step in Halted (R103). -/
theorem step_halted {s : State} (h : s.status = .halted) : step s = .fault .steppedWhileHalted := by
  rw [step, h]

/-- The core has no step in Faulted (R103). -/
theorem step_faulted {s : State} {f : CoreFault} (h : s.status = .faulted f) :
    step s = .fault .steppedWhileFaulted := by
  rw [step, h]

/-- The reason a step has no next state is found without I and F. -/
theorem step_fault_withFlagsIF (bi bf : Bool) {s : State} {e : Fault} (h : step s = .fault e) :
    step (s.withFlagsIF bi bf) = .fault e := by
  cases hs : s.status with
  | running =>
    obtain ⟨t, ht⟩ := step_next hs
    rw [ht] at h
    cases h
  | halted => rw [← h, step_halted hs, step_halted (s := s.withFlagsIF bi bf) hs]
  | faulted f => rw [← h, step_faulted hs, step_faulted (s := s.withFlagsIF bi bf) hs]

/-- Settles O46: every operation of a step commutes with setting I and F, no instruction writes them, and reset clears
every flag. -/
theorem interruptFlagHasNoEffect : Obligations.InterruptFlagHasNoEffect := by
  intro s bi bf
  refine ⟨fun t h => ?_, fun e h => step_fault_withFlagsIF bi bf h, rfl, rfl⟩
  obtain ⟨hi, -, hf, -⟩ := step_keeps_controlFlags h
  exact ⟨step_withFlagsIF bi bf h, hi, hf⟩

end Sys2Proof.Machine

/-! Memory access (20_memory.md R43, R44): a read and a write as the rules say, and which steps write memory. -/

namespace Sys2Proof.Machine

/-- Settles O13: the range test decides between the traced read and the fault, which no later part follows. -/
theorem memoryReadRule : Obligations.MemoryReadRule := by
  intro a s
  refine ⟨fun h => memRead_inRange (inRange_iff.2 h), fun h => ?_⟩
  have hf : memRead a s = .raised (.addressRange a) s := memRead_outOfRange (not_inRange_iff.2 h)
  refine ⟨hf, fun rest => ?_⟩
  rw [hf, andThen_raised]

/-- Storing at an address is read back there. -/
theorem peek_poke_self {s : State} (h : s.Inv) (a v : Word) : (s.poke a v).peek a = v := by
  rw [peek_poke h, if_pos rfl]

/-- The word that a write stores, `v & 0xFFFF`, as a remainder (R44). -/
theorem toNat_ofInt_word (v : Int) : ((BitVec.ofInt 16 v).toNat : Int) = v % 65536 := by
  rw [BitVec.toNat_ofInt]
  omega

/-- Only a profile beyond Core selects STO (R69). -/
theorem profile_of_decode_sto {cfg : Config} {w : Word} {op : Operand} (h : decode cfg w = .instr (.sto op)) :
    cfg.profile = .provisional := by
  obtain ⟨-, hi⟩ | ⟨-, ha, -, -⟩ := decode_instr_cases h
  · cases hi
  · cases hp : cfg.profile with
    | provisional => rfl
    | core => rw [hp] at ha; cases ha

/-- A step that changes memory has decoded STO. -/
theorem decode_sto_of_step_mem_ne {s t : State} (h : step s = .next t) (hne : t.mem ≠ s.mem) :
    ∃ op, decode s.cfg (s.peek s.pc) = .instr (.sto op) := by
  obtain ⟨-, ⟨-, rfl⟩ | ⟨-, -, rfl⟩ | ⟨-, i, hd, he⟩⟩ := step_cases h
  · exact absurd rfl hne
  · exact absurd rfl hne
  · obtain ⟨op, rfl⟩ | hm := (exec_frame he).mem
    · exact ⟨op, hd⟩
    · exact absurd hm hne

/-- Settles O14: a write in range is a traced store of the masked word, one out of range raises, and of the steps only
one that has decoded STO, which Core does not select, can change memory. -/
theorem memoryWriteRule : Obligations.MemoryWriteRule := by
  refine ⟨fun a v s hi ha => ?_, fun a v s ha => memWrite_outOfRange v (not_inRange_iff.2 ha), fun s t h hne => ?_⟩
  · have hself : ((s.traced [⟨.write, a, BitVec.ofInt 16 v⟩]).poke a (BitVec.ofInt 16 v)).peek a = BitVec.ofInt 16 v :=
      peek_poke_self (s := s.traced _) hi a _
    refine ⟨_, memWrite_inRange v (inRange_iff.2 ha), ?_, fun b hb => peek_poke_of_ne (s.traced _) _ hb, ?_, rfl⟩
    · rw [hself, toNat_ofInt_word]
    · rw [hself]; rfl
  · obtain ⟨op, hd⟩ := decode_sto_of_step_mem_ne h hne
    exact ⟨profile_of_decode_sto hd, op, hd⟩

end Sys2Proof.Machine

/-! The Direct operand (40_addressing.md R76): Format A with N ≠ 0 reads the word at N. -/

namespace Sys2Proof.Machine

/-- Format A with N ≠ 0 selects Direct (30_encoding.md R66). -/
theorem mode_formatA_direct {n : BitVec 11} (hn : n ≠ 0#11) (cfg : Config) :
    (Operand.formatA n).mode cfg = .direct n := by
  rw [Operand.mode, if_pos hn]

/-- Format A with N ≠ 0 has no extension word (30_encoding.md R67). -/
theorem words_formatA_direct {n : BitVec 11} (hn : n ≠ 0#11) : (Operand.formatA n).words = 1 := by
  rw [Operand.words, if_neg hn]

/-- Zero extension keeps the value of N, so the range test on the address is one on N. -/
theorem toNat_directAddr (n : BitVec 11) : (BitVec.ofNat 16 n.toNat).toNat = n.toNat := by
  rw [← setWidth_direct, BitVec.toNat_setWidth_of_le (by decide)]

/-- Full resolution of a Direct operand: a read at N, and its word latched in OR (R76, R84). -/
theorem resolve_formatA_direct {n : BitVec 11} (hn : n ≠ 0#11) (w pc0 : Word) (s : State) :
    resolve (.formatA n) w pc0 s =
      (memRead (BitVec.ofNat 16 n.toNat) s).andThen
        (latch · (some (BitVec.ofNat 16 n.toNat)) (.direct n) s.cfg.cycles.direct) := by
  simp only [resolve, mode_formatA_direct hn, setWidth_direct]

/-- Settles O17: the encoded word reads back as Format A with N, whose resolution is the read at N, in range or not. -/
theorem directOperand : Obligations.DirectOperand := by
  intro n f w pc0 s hn
  refine ⟨?_, modeSelector_encodeFields f (.formatA n), decodeOperand_encodeFields f (.formatA n), fun h => ?_,
    fun h => ?_⟩
  · rw [wordLength_encodeFields, words_formatA_direct hn]
  · rw [← toNat_directAddr] at h
    rw [resolve_formatA_direct hn, memRead_inRange (inRange_iff.2 h)]
    rfl
  · rw [← toNat_directAddr] at h
    rw [resolve_formatA_direct hn, memRead_outOfRange (not_inRange_iff.2 h), andThen_raised]

end Sys2Proof.Machine

/-! The controller (44_controller.md R103, R104): when the core has a step, and what the fetch reads or raises. -/

namespace Sys2Proof.Machine

/-- The fetch stores nothing: every word of memory is as before when the controller dispatches. -/
@[simp] theorem atDispatch_peek (s : State) (a : Word) : (atDispatch s).peek a = s.peek a :=
  peek_congr (atDispatch_cfg s) (atDispatch_mem s) a

/-- The core has a step exactly when STATUS is Running (R103). -/
theorem exists_step_next_iff_running {s : State} : (∃ t, step s = .next t) ↔ s.status = .running :=
  ⟨fun ⟨_, h⟩ => running_of_step h, step_next⟩

/-- No STATUS makes the core answer with a refusal. -/
theorem step_ne_refused (s : State) (r : Refusal) : step s ≠ .refused r := by
  cases hs : s.status with
  | running =>
    obtain ⟨t, ht⟩ := step_next hs
    simp [ht]
  | halted => simp [step_halted hs]
  | faulted f => simp [step_faulted hs]

/-- Settles O38: a fetch in range leaves the dispatch state, whose memory is the old one; one out of range is the whole
step, a fault taken at once. -/
theorem fetchRule : Obligations.FetchRule := by
  intro s
  refine ⟨fun h => ?_, fun hs h => ?_⟩
  · exact ⟨atDispatch s, fetch_inRange (inRange_iff.2 h), atDispatch_peek s⟩
  · exact step_fetchFault hs (not_inRange_iff.2 h)

/-- Settles O40, from what a step does in each STATUS. -/
theorem onlyARunningCoreSteps : Obligations.OnlyARunningCoreSteps := fun s =>
  ⟨exists_step_next_iff_running, step_halted, fun _ => step_faulted, step_ne_refused s⟩

end Sys2Proof.Machine

/-! The decoder and the encoder are inverse (30_encoding.md R62 to R70): an instruction with an operand is encoded by
its function code and its fields, which the decoder's ladder of tests tells apart under a well-formed configuration. -/

namespace Sys2Proof

/-! ### Instructions with an operand, and HALT -/

/-- An instruction with an operand is encoded as its function code and its operand fields (R62). -/
theorem encode_of_operand {i : Instr} {op : Operand} (cfg : Config) (h : i.operand? = some op) :
    ∃ f, cfg.fcodeOf i = some f ∧ encode cfg i = encodeFields f op := by
  cases i with
  | halt k => cases h
  | sub o | lda o | sto o | add o | cmp o | and o | neq o | jmp o => cases h; exact ⟨_, rfl, rfl⟩

/-- The length of an encoded instruction comes from its operand fields (R67). -/
theorem wordLength_encode {i : Instr} {op : Operand} (cfg : Config) (h : i.operand? = some op) :
    wordLength (encode cfg i) = op.words := by
  obtain ⟨f, -, he⟩ := encode_of_operand cfg h
  rw [he, wordLength_encodeFields]

/-- An instruction with an operand is well formed when its profile admits it. -/
theorem wf_of_operand {i : Instr} {op : Operand} (cfg : Config) (h : i.operand? = some op) :
    i.wf cfg = cfg.profile.admits i := by
  cases i with
  | halt k => cases h
  | sub o | lda o | sto o | add o | cmp o | and o | neq o | jmp o => exact Bool.and_true _

/-- HALT is well formed when its ignored bits lie outside HALT_MASK, in either profile. -/
theorem halt_wf_iff {cfg : Config} {k : Word} : (Instr.halt k).wf cfg = true ↔ k &&& cfg.haltMask = 0#16 := by
  cases hp : cfg.profile <;> simp [Instr.wf, hp, Profile.admits]

/-- The three conditions of a well-formed configuration as propositions. -/
theorem config_wf_iff {cfg : Config} : cfg.wf = true ↔
    cfg.fcode.toList.Nodup ∧ cfg.haltMatch &&& cfg.haltMask = cfg.haltMatch ∧
      ∀ f ∈ cfg.fcode.toList, cfg.haltApart f = true := by
  simp [Config.wf, and_assoc]

/-- The function code of every instruction that has one is in the decoder's list. -/
theorem fcodeOf_mem {cfg : Config} {i : Instr} {f : BitVec 4} (h : cfg.fcodeOf i = some f) :
    f ∈ cfg.fcode.toList := by
  cases i with
  | halt k => cases h
  | sub op | lda op | sto op | add op | cmp op | and op | neq op | jmp op => cases h; simp [FCodes.toList]

/-! ### Decoding an encoded instruction -/

/-- A word whose function code the HALT pattern excludes is not HALT. -/
theorem isHalt_encodeFields {cfg : Config} {f : BitVec 4} (op : Operand) (h : cfg.haltApart f = true) :
    isHalt cfg (encodeFields f op) = false := by
  rw [Bool.eq_false_iff]
  intro hh
  have hm : encodeFields f op &&& cfg.haltMask = cfg.haltMatch := by simpa [isHalt] using hh
  have hbits : (cfg.haltMatch.extractLsb' 12 4 ^^^ f) &&& cfg.haltMask.extractLsb' 12 4 = 0#4 := by
    rw [← hm, BitVec.extractLsb'_and, ← functionCode, functionCode_encodeFields]
    ext i hi
    simp only [BitVec.getElem_and, BitVec.getElem_xor]
    cases f[i] <;> cases (cfg.haltMask.extractLsb' 12 4)[i] <;> simp
  simp [Config.haltApart, hbits] at h

/-- The bits outside a mask of a word put together from a pattern inside it and a remainder outside it. -/
theorem masked_or_and_not {a k m : Word} (h : k &&& m = 0#16) : ((a &&& m) ||| k) &&& ~~~m = k := by
  ext i hi
  have hi' : (k &&& m)[i] = (0#16)[i] := by rw [h]
  simp only [BitVec.getElem_and, BitVec.getElem_or, BitVec.getElem_not, BitVec.getElem_zero] at hi' ⊢
  cases hk : k[i] <;> cases hm : m[i] <;> simp_all

/-- HALT is decoded first, and keeps its ignored bits (R69, R70). -/
theorem decode_encode_halt {cfg : Config} {k : Word} (hm : cfg.haltMatch &&& cfg.haltMask = cfg.haltMatch)
    (h : (Instr.halt k).wf cfg = true) : decode cfg (encode cfg (.halt k)) = .instr (.halt k) := by
  have hh : isHalt cfg (encode cfg (.halt k)) = true := Laws.WordFields.halt k cfg h hm
  have hk : haltOf cfg (encode cfg (.halt k)) = .halt k := by
    rw [haltOf, encode, ← hm, masked_or_and_not (halt_wf_iff.1 h)]
  cases hp : cfg.profile <;> simp [decode, hp, decodeCore, decodeProv, hh, hk]

/-- Decode_Core selects the one instruction with an operand that Core admits (R69). -/
theorem decodeCore_encode {cfg : Config} {i : Instr} {op : Operand} (ha : Profile.core.admits i = true)
    (hh : isHalt cfg (encode cfg i) = false) (ho : i.operand? = some op) :
    decodeCore cfg (encode cfg i) = .instr i := by
  cases i with
  | sub op =>
    rw [encode] at hh ⊢
    simp [decodeCore, hh, functionCode_encodeFields, decodeOperand_encodeFields]
  | halt k => cases ho
  | lda op | sto op | add op | cmp op | and op | neq op | jmp op => cases ha

/-- Decode_Prov selects an instruction by its function code where the codes differ (R70). -/
theorem decodeProv_encode {cfg : Config} {i : Instr} {op : Operand} (hn : cfg.fcode.toList.Nodup)
    (hh : isHalt cfg (encode cfg i) = false) (ho : i.operand? = some op) :
    decodeProv cfg (encode cfg i) = .instr i := by
  simp only [FCodes.toList, List.nodup_cons, List.mem_cons, List.not_mem_nil, not_or] at hn
  cases i with
  | halt k => cases ho
  | sub op | lda op | sto op | add op | cmp op | and op | neq op | jmp op =>
    have hf := fun f => functionCode_encodeFields f op
    have hd := fun f => decodeOperand_encodeFields f op
    grind [decodeProv, encode]

/-- Decoding an encoded well-formed instruction gives it back. -/
theorem decode_encode {cfg : Config} {i : Instr} (hw : cfg.wf = true) (hi : i.wf cfg = true) :
    decode cfg (encode cfg i) = .instr i := by
  obtain ⟨hn, hm, ha⟩ := config_wf_iff.1 hw
  cases ho : i.operand? with
  | some op =>
    obtain ⟨f, hf, he⟩ := encode_of_operand cfg ho
    have hh : isHalt cfg (encode cfg i) = false := by rw [he, isHalt_encodeFields op (ha f (fcodeOf_mem hf))]
    rw [wf_of_operand cfg ho] at hi
    unfold decode
    cases hp : cfg.profile with
    | core => exact decodeCore_encode (hp ▸ hi) hh ho
    | provisional => exact decodeProv_encode hn hh ho
  | none =>
    cases i with
    | halt k => exact decode_encode_halt hm hi
    | sub op | lda op | sto op | add op | cmp op | and op | neq op | jmp op => cases ho

/-- Settles O7, by `decode_encode`. -/
theorem encodeThenDecode : Obligations.EncodeThenDecode := fun _ _ => decode_encode

/-! ### Encoding a decoded word -/

/-- Encoding a decoded word gives the word back. -/
theorem encode_of_decode {cfg : Config} {w : Word} {i : Instr} (h : decode cfg w = .instr i) : encode cfg i = w := by
  obtain ⟨hh, rfl⟩ | ⟨-, -, hf, ho⟩ := decode_instr_cases h
  · have hm : w &&& cfg.haltMask = cfg.haltMatch := by simpa [isHalt] using hh
    rw [haltOf, encode, ← hm, and_or_and_not]
  · obtain ⟨f, hf', he⟩ := encode_of_operand cfg ho
    rw [hf, Option.some.injEq] at hf'
    rw [he, ← hf', encodeFields_decodeOperand]

/-- What is decoded is well formed. -/
theorem wf_of_decode {cfg : Config} {w : Word} {i : Instr} (h : decode cfg w = .instr i) : i.wf cfg = true := by
  obtain ⟨-, rfl⟩ | ⟨-, ha, -, ho⟩ := decode_instr_cases h
  · rw [haltOf, halt_wf_iff, BitVec.and_assoc, BitVec.and_comm (~~~_)]
    simp
  · rw [wf_of_operand cfg ho, ha]

/-- Settles O8: the decoder keeps every bit, and only answers what the profile admits. -/
theorem decodeThenEncode : Obligations.DecodeThenEncode := fun _ _ _ h => ⟨encode_of_decode h, wf_of_decode h⟩

/-! ### The profiles -/

/-- Under a well-formed configuration the decoder is the inverse of the encoder. -/
theorem decode_eq_instr_iff {cfg : Config} (hw : cfg.wf = true) {w : Word} {i : Instr} :
    decode cfg w = .instr i ↔ encode cfg i = w ∧ i.wf cfg = true :=
  ⟨fun h => ⟨encode_of_decode h, wf_of_decode h⟩, fun ⟨he, hi⟩ => he ▸ decode_encode hw hi⟩

/-- The profile has no part in the encoding. -/
theorem encode_profile (cfg : Config) (p : Profile) (i : Instr) :
    encode { cfg with profile := p } i = encode cfg i := by
  cases i <;> rfl

/-- Well formed under Core is well formed under Provisional and admitted by Core. -/
theorem core_wf_iff (cfg : Config) (i : Instr) : i.wf { cfg with profile := .core } = true ↔
    i.wf { cfg with profile := .provisional } = true ∧ Profile.core.admits i = true := by
  cases i <;> simp [Instr.wf, Profile.admits]

/-- Settles O12: each profile decodes the words of its well-formed instructions, and the profiles encode alike. -/
theorem profilesAgreeOnCoreInstructions : Obligations.ProfilesAgreeOnCoreInstructions := by
  intro cfg w hw i
  have h (p : Profile) := decode_eq_instr_iff (cfg := { cfg with profile := p }) (w := w) (i := i) hw
  rw [h, h, encode_profile cfg .core, encode_profile cfg .provisional, core_wf_iff, and_assoc]

/-- Settles O4, by evaluation of the default parameters. -/
theorem defaultEncodingsAreApart : Obligations.DefaultEncodingsAreApart := by
  unfold Obligations.DefaultEncodingsAreApart
  decide

/-- Settles O9, by evaluation of the decoder on the spec's words. -/
theorem specWordsDecode : Obligations.SpecWordsDecode := by
  unfold Obligations.SpecWordsDecode
  decide

end Sys2Proof

/-! Addressing modes (30_encoding.md R66, R67, R73): the length an operand's mode implies, and the written form of a
mode. -/

namespace Sys2Proof

/-- The length of an operand whose mode is not ReservedR: two words in the extension modes (R67). -/
theorem words_of_mode {cfg : Config} {op : Operand} (h : op.mode cfg ≠ .reservedR) :
    op.words = if op.mode cfg = .immediate ∨ op.mode cfg = .wordDirect then 2 else 1 := by
  cases op with
  | formatA n => by_cases hn : n = 0#11 <;> simp [Operand.words, Operand.mode, hn]
  | formatB r sm p =>
    have hr : r = true → cfg.rPolicy = .ignore := by
      rintro rfl
      cases hp : cfg.rPolicy with
      | ignore => rfl
      | fault => exact absurd (by simp [Operand.mode, hp]) h
    by_cases hp : p = 0#8
    · subst hp
      simp [Operand.words, mode_formatB_zero hr]
    · cases hs : cfg.subModes.get sm <;> simp [Operand.words, hp, mode_formatB_pointer hr hp, hs]

/-- Settles O11: the encoded length is that of the operand fields, which the mode tells; and `wordLength` tests I and
then N or P only. -/
theorem lengthComesFromTheMode : Obligations.LengthComesFromTheMode := by
  refine ⟨fun cfg i op ho hm => ?_, fun w w' hI hN hP => ?_⟩
  · rw [wordLength_encode cfg ho, words_of_mode hm]
  · unfold wordLength
    rw [← hI]
    cases hw : w.getLsbD 11
    · simp [hN hw]
    · simp [hP hw]

/-! ### Writing a mode (R73) -/

/-- The sub-mode that is written for a meaning has that meaning (R13, R73). -/
theorem get_of_find {m : SubModeMap} {k : SubMode} {sm : BitVec 2} (h : m.find k = some sm) : m.get sm = k := by
  unfold SubModeMap.find at h
  split_ifs at h <;> cases h <;> assumption

/-- A sub-mode is found for every meaning that SUBMODE_MAP gives (R13, R73). -/
theorem find_of_get {m : SubModeMap} {k : SubMode} {sm : BitVec 2} (h : m.get sm = k) : ∃ x, m.find k = some x := by
  unfold SubModeMap.get at h
  unfold SubModeMap.find
  split_ifs at h ⊢ <;> simp_all

/-- The operand fields written for a mode select it (R66, R73). -/
theorem mode_of_toOperand {cfg : Config} {m : Mode} {op : Operand} (h : m.toOperand cfg = some op) :
    op.mode cfg = m := by
  unfold Mode.toOperand at h
  split at h
  · next hw =>
    cases m with
    | direct n => cases h; simpa [Operand.mode, Mode.wf] using hw
    | immediate => cases h; rfl
    | wordDirect => cases h; exact mode_formatB_zero (by simp)
    | ptr p | ptrInc p | ptrDec p =>
      obtain ⟨sm, hs, rfl⟩ := Option.map_eq_some_iff.1 h
      have hp : p ≠ 0#8 := by simpa [Mode.wf] using hw
      rw [mode_formatB_pointer (by simp) hp, get_of_find hs]
    | reservedR | reservedSubMode => cases h
  · cases h

/-- The pointer modes, with the meaning of their sub-mode and their pointer index. -/
def Mode.pointer? : Mode → Option (SubMode × BitVec 8)
  | .ptr p => some (.ptr, p)
  | .ptrInc p => some (.ptrInc, p)
  | .ptrDec p => some (.ptrDec, p)
  | .direct _ | .immediate | .wordDirect | .reservedR | .reservedSubMode => none

/-- A pointer mode comes from a sub-mode of its meaning, and never has P = 0, which is `.W` (R66). -/
theorem pointer?_mode {cfg : Config} {op : Operand} {k : SubMode} {p : BitVec 8}
    (h : (op.mode cfg).pointer? = some (k, p)) : p ≠ 0#8 ∧ ∃ sm, cfg.subModes.get sm = k := by
  cases op with
  | formatA n => rw [Operand.mode] at h; split at h <;> cases h
  | formatB r sm p' =>
    rw [Operand.mode] at h
    split at h
    · cases h
    · split at h
      · cases h
      · next hp => cases hs : cfg.subModes.get sm <;> rw [hs] at h <;> cases h <;> exact ⟨hp, sm, hs⟩

/-- Every mode in the ranges of R74 that some operand selects can be written. -/
theorem toOperand_of_mode {cfg : Config} {m : Mode} {op : Operand} (h : op.mode cfg = m) (hw : m.wf = true) :
    ∃ op', m.toOperand cfg = some op' := by
  have hfind {k p} (hk : m.pointer? = some (k, p)) :
      ∃ op', ((cfg.subModes.find k).map fun sm => Operand.formatB false sm p) = some op' := by
    obtain ⟨-, sm, hs⟩ := pointer?_mode (h ▸ hk)
    obtain ⟨x, hx⟩ := find_of_get hs
    exact ⟨_, congrArg _ hx⟩
  unfold Mode.toOperand
  rw [if_pos hw]
  cases m with
  | direct n | immediate | wordDirect => exact ⟨_, rfl⟩
  | ptr p | ptrInc p | ptrDec p => exact hfind rfl
  | reservedR | reservedSubMode => cases hw

/-- Settles O10, by the two directions. -/
theorem notationSelectsItsMode : Obligations.NotationSelectsItsMode :=
  fun _ _ => ⟨fun _ => mode_of_toOperand, fun _ => toOperand_of_mode⟩

end Sys2Proof

/-! Memory (20_memory.md R44, R45, R58): reads and fetches after a write. -/

namespace Sys2Proof.Machine

/-- A write that finishes was in range, and is the traced store of the masked word (R44). -/
theorem memWrite_ok {a : Word} {v : Int} {s t : State} (h : memWrite a v s = .ok () t) :
    s.inRange a = true ∧ t = (s.traced [⟨.write, a, BitVec.ofInt 16 v⟩]).poke a (BitVec.ofInt 16 v) := by
  cases hr : s.inRange a
  · rw [memWrite_outOfRange v hr] at h
    cases h
  · rw [memWrite_inRange v hr] at h
    cases h
    exact ⟨rfl, rfl⟩

/-- What is observed at each address after a finished write. -/
theorem peek_memWrite {a : Word} {v : Int} {s t : State} (hi : s.Inv) (h : memWrite a v s = .ok () t) (b : Word) :
    t.peek b = if b = a then BitVec.ofInt 16 v else s.peek b := by
  obtain ⟨-, rfl⟩ := memWrite_ok h
  exact peek_poke (s := s.traced _) hi a _ b

/-- Settles O15: a read in range gives what is observed, and both accesses test the range alike. -/
theorem readAfterWrite : Obligations.ReadAfterWrite := by
  intro a b v s hi
  refine ⟨fun t h hb => ?_, fun ha => ?_⟩
  · obtain ⟨-, rfl⟩ := memWrite_ok h
    rw [← peek_memWrite hi h b]
    exact ⟨_, memRead_inRange (inRange_iff.2 hb)⟩
  · exact ⟨memRead_outOfRange (not_inRange_iff.2 ha), memWrite_outOfRange v (not_inRange_iff.2 ha)⟩

/-- Settles O16: the write leaves PC, whose word the fetch reads. -/
theorem storeIsSeenByTheNextFetch : Obligations.StoreIsSeenByTheNextFetch := by
  intro v s t hi h
  have hw : t.peek s.pc = BitVec.ofInt 16 v := by rw [peek_memWrite hi h, if_pos rfl]
  obtain ⟨hr, ht⟩ := memWrite_ok h
  have hpc : t.pc = s.pc := by rw [ht]; rfl
  have hf : fetch t = .ok (t.peek t.pc) (atDispatch t) := fetch_inRange (by rw [ht]; exact hr)
  rw [hpc, hw] at hf
  exact ⟨_, hf, by rw [atDispatch_pc, hpc, hw]⟩

end Sys2Proof.Machine

/-! Reset and the host's transactions (44_controller.md R111, R115; 70_reset_and_hazards.md R132 to R135): what they
keep and what a loaded image leaves in memory. -/

namespace Sys2Proof.Machine

/-! ### Reset -/

/-- Settles O1, by `resetOp`'s field equations. -/
theorem resetSetsTheRegisters : Obligations.ResetSetsTheRegisters := fun s =>
  ⟨resetOp_acc s, resetOp_or s, resetOp_pc s, resetOp_status s, resetOp_cr s⟩

/-- Settles O2: what reset does not write, the views of memory and of the pointer file included. -/
theorem resetKeepsMemoryAndPointers : Obligations.ResetKeepsMemoryAndPointers := fun s =>
  ⟨peek_congr (resetOp_cfg s) (resetOp_mem s), resetOp_mem s, fun _ => rfl, resetOp_ptr s, resetOp_cfg s,
    resetOp_tracer s⟩

/-- Settles O3: the memory of the launch lists nothing. -/
theorem resetStateMeetsTheInvariant : Obligations.ResetStateMeetsTheInvariant := ⟨rfl, rfl⟩

/-! ### The invariant -/

/-- The fetch keeps the invariant. -/
theorem Inv_atDispatch {s : State} (h : s.Inv) : (atDispatch s).Inv :=
  (Inv_congr (atDispatch_cfg s) (atDispatch_mem s)).2 h

/-- A step keeps the invariant. -/
theorem step_keeps_Inv {s t : State} (hi : s.Inv) (h : step s = .next t) : t.Inv := by
  obtain ⟨-, ⟨-, rfl⟩ | ⟨-, -, rfl⟩ | ⟨-, i, -, he⟩⟩ := step_cases h
  · exact (Inv_congr (takeFault_cfg _ s) (takeFault_mem _ s)).2 hi
  · exact (Inv_congr (takeFault_cfg _ _) (takeFault_mem _ _)).2 (Inv_atDispatch hi)
  · exact (exec_frame he).inv (Inv_atDispatch hi)

/-- Settles O5: of the things a step can do, only a store in range writes memory. -/
theorem stepKeepsTheInvariant : Obligations.StepKeepsTheInvariant := fun _ _ => step_keeps_Inv

/-- Words stored one after another. -/
def Memory.setAll (sentinel : Word) (m : Mem) (image : List (Word × Word)) : Mem :=
  image.foldl (fun m e => Memory.set sentinel m e.1.toNat e.2) m

/-- A loaded image is stored into the empty memory (R115). -/
theorem imageMem_eq_setAll (d : Word) (image : List (Word × Word)) : imageMem d image = Memory.setAll d [] image := rfl

/-- Stores within [0, MEMTOP] keep the canonical form. -/
theorem Memory.wf_setAll (d : Word) {top : Nat} {m : Mem} {image : List (Word × Word)} (hm : Memory.wf d top m = true)
    (h : ∀ e ∈ image, e.1.toNat ≤ top) : Memory.wf d top (Memory.setAll d m image) = true :=
  image.foldlRecOn (motive := (Memory.wf d top · = true)) _ hm fun _ hm' e he => Memory.wf_set d e.2 hm' (h e he)

/-- Stores elsewhere leave a word as it was. -/
theorem Memory.get_setAll_of_unlisted (d : Word) (m : Mem) {image : List (Word × Word)} {a : Word}
    (h : ∀ e ∈ image, e.1 ≠ a) : Memory.get d (Memory.setAll d m image) a.toNat = Memory.get d m a.toNat :=
  image.foldlRecOn (motive := fun m' => Memory.get d m' a.toNat = Memory.get d m a.toNat) _ rfl fun m' hm' e he => by
    rw [Memory.get_set_of_ne d m' e.2 fun hn => h e he (BitVec.eq_of_toNat_eq hn).symm, hm']

/-- Where no address is stored to twice, each holds what was stored there. -/
theorem Memory.get_setAll_of_listed (d : Word) {top : Nat} {m : Mem} {image : List (Word × Word)} {e : Word × Word}
    (hm : Memory.wf d top m = true) (h : ∀ e ∈ image, e.1.toNat ≤ top) (hn : (image.map (·.1)).Nodup) (he : e ∈ image) :
    Memory.get d (Memory.setAll d m image) e.1.toNat = e.2 := by
  induction image generalizing m with
  | nil => cases he
  | cons e' rest ih =>
    obtain ⟨hhead, hrest⟩ := List.forall_mem_cons.1 h
    obtain ⟨hfresh, hn'⟩ := List.nodup_cons.1 hn
    change Memory.get d (Memory.setAll d (Memory.set d m e'.1.toNat e'.2) rest) e.1.toNat = e.2
    obtain rfl | he' := List.mem_cons.1 he
    · rw [Memory.get_setAll_of_unlisted d _ fun x hx hxe => hfresh (List.mem_map.2 ⟨x, hx, hxe⟩),
        Memory.get_set_self d _ _ hm]
    · exact ih (Memory.wf_set d e'.2 hm hhead) hrest hn' he'

/-! ### The host's transactions -/

/-- A load happens for an image within [0, MEMTOP], and replaces memory and the pointer file (R115). -/
theorem loadImage_eq_some {image : List (Word × Word)} {pointers : Vector Word 256} {s t : State} :
    loadImage image pointers s = some t ↔ (∀ e ∈ image, e.1.toNat ≤ s.cfg.memTop.toNat) ∧
      { s with mem := Memory.setAll s.cfg.sentinel [] image, ptr := pointers } = t := by
  simp [loadImage, imageMem_eq_setAll, inRange_iff]

/-- The host sets a word in range, and stores it (R115). -/
theorem setMemWord_eq_some {a v : Word} {s t : State} :
    setMemWord a v s = some t ↔ s.inRange a = true ∧ s.poke a v = t := by
  simp [setMemWord]

/-- The host's step is the core's (R115). -/
theorem stepMove_eq_some {s t : State} : stepMove s = some t ↔ step s = .next t := by
  unfold stepMove
  cases step s <;> simp

/-- Settles O6: a load stores within [0, MEMTOP], a step keeps the invariant, the host sets a word in range only, and
the other transactions leave memory alone. -/
theorem transactionsKeepTheInvariant : Obligations.TransactionsKeepTheInvariant := by
  intro a s t hi h
  cases a with
  | load image pointers =>
    obtain ⟨hr, rfl⟩ := loadImage_eq_some.1 h
    exact ⟨Memory.wf_setAll _ rfl hr, rfl⟩
  | singleStep =>
    have hs := stepMove_eq_some.1 h
    exact ⟨step_keeps_Inv hi hs, (step_keeps_controlFlags hs).2.2.2⟩
  | setMem a v =>
    obtain ⟨hr, rfl⟩ := setMemWord_eq_some.1 h
    exact ⟨Inv_poke hi v hr, rfl⟩
  | reset | setAcc v | setOr v | setPc v | setFlag flag b | setPointer p v | attachTracer | observe | stop =>
    cases h
    exact ⟨hi, rfl⟩

/-- Settles O51: the load stores the image into the empty memory, and reset leaves it there. -/
theorem launchHoldsTheImage : Obligations.LaunchHoldsTheImage := by
  intro image pointers s hr hn
  refine ⟨resetOp { s with mem := Memory.setAll s.cfg.sentinel [] image, ptr := pointers }, ?_,
    Memory.wf_setAll _ rfl hr, rfl, rfl, rfl, fun e he => Memory.get_setAll_of_listed _ (m := []) rfl hr hn he,
    fun a ha => Memory.get_setAll_of_unlisted _ [] ha⟩
  simp only [Driver.session, Driver.apply, loadImage_eq_some.2 ⟨hr, rfl⟩, Option.bind_some]

/-- No transaction but reset changes STATUS where the core has no step (R111). -/
theorem apply_keeps_status {a : Driver.Action} {s t : State} (hs : s.status ≠ .running) (ha : a ≠ .reset)
    (h : Driver.apply a s = some t) : t.status = s.status := by
  cases a with
  | load image pointers => obtain ⟨-, rfl⟩ := loadImage_eq_some.1 h; rfl
  | reset => exact absurd rfl ha
  | singleStep => exact absurd (running_of_step (stepMove_eq_some.1 h)) hs
  | setMem a v => obtain ⟨-, rfl⟩ := setMemWord_eq_some.1 h; rfl
  | setAcc v | setOr v | setPc v | setFlag flag b | setPointer p v | attachTracer | observe | stop => cases h; rfl

/-- Settles O52: a core that is not Running has no step, and reset makes it Running. -/
theorem onlyResetLeavesAStop : Obligations.OnlyResetLeavesAStop := by
  intro s hs
  refine ⟨?_, fun a t h ha => apply_keeps_status hs ha h, resetOp s, ?_⟩
  · cases h : Driver.apply .singleStep s with
    | none => rfl
    | some t => exact absurd (running_of_step (stepMove_eq_some.1 h)) hs
  · obtain ⟨u, hu⟩ := step_next (resetOp_status s)
    exact ⟨u, rfl, stepMove_eq_some.2 hu⟩

end Sys2Proof.Machine

/-! The operand resolver (40_addressing.md R77 to R83, R87): full resolution of Format A with N = 0 and of Format B, and
address-only resolution, mode by mode. -/

namespace Sys2Proof.Machine

/-! ### Full resolution -/

/-- The read that ends a full resolution, in range: the word is traced and latched in OR (R84). -/
theorem memRead_latch {a : Word} {s : State} (ea : Option Word) (m : Mode) (n : Nat)
    (h : a.toNat ≤ s.cfg.memTop.toNat) :
    (memRead a s).andThen (latch · ea m n) =
      .ok ⟨s.peek a, ea, m, n⟩ ({ s with or := s.peek a }.traced [readEvent s a]) := by
  rw [memRead_inRange (inRange_iff.2 h)]
  rfl

/-- A part that begins with a read out of range raises at once (R43). -/
theorem memRead_raised {α : Type} {a : Word} {s : State} (k : Word → State → Part α)
    (h : s.cfg.memTop.toNat < a.toNat) : (memRead a s).andThen k = .raised (.addressRange a) s := by
  rw [memRead_outOfRange (not_inRange_iff.2 h), andThen_raised]

/-- Full resolution of an Immediate operand (R77). -/
theorem resolve_immediate (w pc0 : Word) (s : State) :
    resolve (.formatA 0#11) w pc0 s =
      (memRead (pc0 + 1#16) s).andThen (latch · none .immediate s.cfg.cycles.immediate) := rfl

/-- Settles O18: the read of the extension word, in range or not. -/
theorem immediateOperand : Obligations.ImmediateOperand := by
  intro f w pc0 s
  rw [wordLength_encodeFields, resolve_immediate]
  exact ⟨rfl, memRead_latch none _ _, memRead_raised _⟩

/-- A Format B operand with P ≠ 0 is one word long (R67). -/
theorem wordLength_formatB_pointer {p : BitVec 8} (hp : p ≠ 0#8) (f : BitVec 4) (r : Bool) (sm : BitVec 2) :
    wordLength (encodeFields f (.formatB r sm p)) = 1 := by
  rw [wordLength_encodeFields, Operand.words, if_neg hp]

/-- Full resolution of a `/P` operand (R78). -/
theorem resolve_ptr {op : Operand} {p : BitVec 8} {s : State} (w pc0 : Word) (hm : op.mode s.cfg = .ptr p) :
    resolve op w pc0 s =
      (memRead (s.pointer p) s).andThen (latch · (some (s.pointer p)) (.ptr p) s.cfg.cycles.ptr) := by
  simp only [resolve, hm]

/-- Settles O19: the read at the pointer, in range or not. -/
theorem pointerOperand : Obligations.PointerOperand := by
  intro r sm p f w pc0 s hr hp hs
  have hm : (Operand.formatB r sm p).mode s.cfg = .ptr p := by rw [mode_formatB_pointer hr hp, hs]
  rw [wordLength_formatB_pointer hp, resolve_ptr w pc0 hm]
  exact ⟨rfl, memRead_latch _ _ _, memRead_raised _⟩

/-- Full resolution of a `/P+` operand: the pointer is set before the read (R79). -/
theorem resolve_ptrInc {op : Operand} {p : BitVec 8} {s : State} (w pc0 : Word) (hm : op.mode s.cfg = .ptrInc p) :
    resolve op w pc0 s =
      (memRead (s.pointer p + 1#16) (s.setPointer p (s.pointer p + 1#16))).andThen
        (latch · (some (s.pointer p + 1#16)) (.ptrInc p) s.cfg.cycles.ptrInc) := by
  simp only [resolve, hm, pointer_incPointer_self]
  rfl

/-- Settles O20: the read at the incremented pointer, in range or not, in the state that has the increment. -/
theorem pointerIncrementComesFirst : Obligations.PointerIncrementComesFirst := by
  intro r sm p f w pc0 s hr hp hs ea
  have hea : ea = s.pointer p + 1#16 := ofNat_add_one (s.pointer p)
  have hm : (Operand.formatB r sm p).mode s.cfg = .ptrInc p := by rw [mode_formatB_pointer hr hp, hs]
  rw [wordLength_formatB_pointer hp, resolve_ptrInc w pc0 hm, ← hea]
  exact ⟨rfl, memRead_latch (s := s.setPointer p ea) _ _ _, memRead_raised (s := s.setPointer p ea) _⟩

/-- Full resolution of a `/P-` operand: the pointer is set after the read (R80). -/
theorem resolve_ptrDec {op : Operand} {p : BitVec 8} {s : State} (w pc0 : Word) (hm : op.mode s.cfg = .ptrDec p) :
    resolve op w pc0 s =
      (memRead (s.pointer p) s).andThen fun v u =>
        latch v (some (s.pointer p)) (.ptrDec p) s.cfg.cycles.ptrDec (decPointer p u) := by
  simp only [resolve, hm]

/-- Settles O21: the read at the pointer comes first, and its fault ends the resolution before the decrement. -/
theorem pointerDecrementComesLast : Obligations.PointerDecrementComesLast := by
  intro r sm p f w pc0 s hr hp hs ea
  have hm : (Operand.formatB r sm p).mode s.cfg = .ptrDec p := by rw [mode_formatB_pointer hr hp, hs]
  rw [wordLength_formatB_pointer hp, resolve_ptrDec w pc0 hm, ofNat_add_65535]
  refine ⟨rfl, fun h => ?_, memRead_raised _⟩
  rw [memRead_inRange (inRange_iff.2 h)]
  rfl

/-- Full resolution of a `.W` operand: the extension word gives the address of the second read (R81). -/
theorem resolve_wordDirect {op : Operand} {s : State} (w pc0 : Word) (hm : op.mode s.cfg = .wordDirect) :
    resolve op w pc0 s =
      (memRead (pc0 + 1#16) s).andThen fun x u =>
        (memRead (extTarget x) u).andThen (latch · (some (extTarget x)) .wordDirect s.cfg.cycles.wordDirect) := by
  simp only [resolve, hm]
  rfl

/-- Settles O22: two reads, and the fault of the first that is out of range. -/
theorem wordDirectOperand : Obligations.WordDirectOperand := by
  intro r sm f w pc0 s hr x ea
  have hea : ea = extTarget x := ofNat_mod_eq_extTarget x
  rw [wordLength_encodeFields, resolve_wordDirect w pc0 (mode_formatB_zero hr)]
  refine ⟨rfl, fun hx ha => ?_, fun hx ha => ?_, memRead_raised _⟩
  · rw [memRead_inRange (inRange_iff.2 hx), andThen_ok, ← hea, memRead_latch (s := s.traced _) _ _ _ ha]
    exact congrArg _ (traced_traced { s with or := s.peek ea } _ _)
  · rw [memRead_inRange (inRange_iff.2 hx), andThen_ok, ← hea, memRead_raised (s := s.traced _) _ ha]

/-! ### Reserved encodings -/

/-- Full resolution reads of the operand nothing but its mode (R75). -/
theorem resolve_congr {op op' : Operand} {s : State} (w pc0 : Word) (h : op.mode s.cfg = op'.mode s.cfg) :
    resolve op w pc0 s = resolve op' w pc0 s := by
  unfold resolve
  rw [h]

/-- Address-only resolution reads of the operand nothing but its mode (R87). -/
theorem resolveAddr_congr {op op' : Operand} {s : State} (w pc0 : Word) (h : op.mode s.cfg = op'.mode s.cfg) :
    resolveAddr op w pc0 s = resolveAddr op' w pc0 s := by
  unfold resolveAddr
  rw [h]

/-- Under R_POLICY = Fault the bit R selects ReservedR (R66, R82). -/
theorem mode_formatB_reservedR {cfg : Config} (h : cfg.rPolicy = .fault) (sm : BitVec 2) (p : BitVec 8) :
    (Operand.formatB true sm p).mode cfg = .reservedR := by
  simp only [Operand.mode, h, and_self, if_true]

/-- Under R_POLICY = Ignore the bit R does not tell modes apart (R14). -/
theorem mode_formatB_ignore {cfg : Config} (h : cfg.rPolicy = .ignore) (sm : BitVec 2) (p : BitVec 8) :
    (Operand.formatB true sm p).mode cfg = (Operand.formatB false sm p).mode cfg := by
  simp [Operand.mode, h]

/-- Settles O23: both resolutions look at the mode first, raise in a reserved one, and see nothing else of the
operand. -/
theorem reservedEncodingsFault : Obligations.ReservedEncodingsFault := by
  intro r sm p w pc0 s
  refine ⟨fun h => ?_, fun hr hp hs => ?_, fun h => ?_⟩
  · have hm := mode_formatB_reservedR h sm p
    simp only [resolve, resolveAddr, hm, and_self]
  · have hm : (Operand.formatB r sm p).mode s.cfg = .reservedSubMode := by rw [mode_formatB_pointer hr hp, hs]
    simp only [resolve, resolveAddr, hm, and_self]
  · have hm := mode_formatB_ignore h sm p
    exact ⟨resolve_congr w pc0 hm, resolveAddr_congr w pc0 hm⟩

/-! ### Address-only resolution -/

/-- Settles O24: the arm of address-only resolution for each mode; only the extension modes read, at `pc0 + 1`. -/
theorem addressOnlyResolution : Obligations.AddressOnlyResolution := by
  intro op w pc0 s
  refine ⟨fun n hm => ?_, fun p hm => ?_, fun p hm => ?_, fun p hm => ?_, fun hm hx => ?_, fun hm hx => ?_,
    fun hu hx => ?_⟩
  · simp only [resolveAddr, hm, setWidth_direct]
  · simp only [resolveAddr, hm]
  · simp only [resolveAddr, hm, pointer_incPointer_self]; rfl
  · simp only [resolveAddr, hm]; rfl
  · simp only [resolveAddr, hm, extAddr, memRead_inRange (inRange_iff.2 hx), andThen_ok]; rfl
  · simp only [resolveAddr, hm, extAddr, memRead_inRange (inRange_iff.2 hx), andThen_ok, ofNat_mod_eq_extTarget]; rfl
  · unfold usesExt at hu
    split at hu
    · next hm => simp only [resolveAddr, hm, extAddr, memRead_raised _ hx]
    · next hm => simp only [resolveAddr, hm, extAddr, memRead_raised _ hx]
    all_goals cases hu

end Sys2Proof.Machine

/-! What no step reads: OR and the flags Z, V and S (10_state.md R24, R28 to R30), PTR[0] (R35) and the tracer
(20_memory.md R50). The argument is one for all three. A step is put together from a few updates of the state; when
each update passes a change of an unread piece on, and nothing else sees the change, a step passes it on too. -/

namespace Sys2Proof.Machine

/-! ### The updates of a step, and changes they pass on -/

/-- The updates that a step is put together from. Of the pointers it sets only those with P ≠ 0. -/
inductive Update where
  | traced (e : TraceEvent)
  | setPointer (p : BitVec 8) (v : Word) (hp : p ≠ 0#8)
  | setOr (v : Word)
  | setPc (v : Word)
  | poke (a v : Word)
  | sub (v : Word)
  | add (v : Word)
  | cmp (v : Word)
  | setAccZS (res : Word)
  | takeFault (f : CoreFault)
  | takeHalt
  | complete (n : Nat)

/-- The update of the state. -/
def Update.run : Update → State → State
  | .traced e, s => s.traced [e]
  | .setPointer p v _, s => s.setPointer p v
  | .setOr v, s => { s with or := v }
  | .setPc v, s => { s with pc := v }
  | .poke a v, s => s.poke a v
  | .sub v, s => subEffect v s
  | .add v, s => addEffect v s
  | .cmp v, s => cmpEffect v s
  | .setAccZS res, s => Sys2Proof.Machine.setAccZS res s
  | .takeFault f, s => Sys2Proof.Machine.takeFault f s
  | .takeHalt, s => Sys2Proof.Machine.takeHalt s
  | .complete n, s => Sys2Proof.Machine.complete n s

section
variable {X α β : Type} {γ : X → State → State} {K : Set (X → X)}

/-- The states `S x` are the state `s` with the changes `γ (k x)`, for a `k` of `K` that does not depend on `x`. -/
def Moved (γ : X → State → State) (K : Set (X → X)) (S : X → State) (s : State) : Prop :=
  ∃ k ∈ K, ∀ x, S x = γ (k x) s

/-- The same for the parts of an instruction: the value or the fault is one for all `x`. -/
def Carried (γ : X → State → State) (K : Set (X → X)) (P : X → Part α) (q : Part α) : Prop :=
  ∃ k ∈ K, ∀ x, P x = q.mapState (γ (k x))

/-- The changes `γ x` are of a piece of state that no step reads: what a step looks at is as before, and each update
passes the change on, as one of the functions `K` says. -/
structure Unread (γ : X → State → State) (K : Set (X → X)) : Prop where
  id_mem : id ∈ K
  comp_mem : ∀ {k l}, k ∈ K → l ∈ K → l ∘ k ∈ K
  cfg : ∀ x s, (γ x s).cfg = s.cfg
  acc : ∀ x s, (γ x s).acc = s.acc
  pc : ∀ x s, (γ x s).pc = s.pc
  status : ∀ x s, (γ x s).status = s.status
  mem : ∀ x s, (γ x s).mem = s.mem
  pointer : ∀ x s {p}, p ≠ 0#8 → (γ x s).pointer p = s.pointer p
  update : ∀ (q : Update) (s : State), Moved γ K (fun x => q.run (γ x s)) (q.run s)

/-! ### Composition -/

/-- Nothing observed in memory changes. -/
theorem Unread.peek (U : Unread γ K) (x : X) (s : State) (a : Word) : (γ x s).peek a = s.peek a :=
  peek_congr (U.cfg x s) (U.mem x s) a

/-- The range test is as before. -/
theorem Unread.inRange (U : Unread γ K) (x : X) (s : State) (a : Word) : (γ x s).inRange a = s.inRange a :=
  inRange_congr (U.cfg x s) a

/-- The address of the opcode word is as before. -/
theorem Unread.opcodeAddr (U : Unread γ K) (x : X) (s : State) (i : Instr) :
    opcodeAddr i (γ x s) = opcodeAddr i s := by
  simp only [Machine.opcodeAddr, U.cfg, U.pc]

/-- One update after another. -/
theorem Unread.moved_run (U : Unread γ K) (q : Update) {S : X → State} {s : State} (h : Moved γ K S s) :
    Moved γ K (fun x => q.run (S x)) (q.run s) := by
  obtain ⟨k, hk, hS⟩ := h
  obtain ⟨l, hl, hq⟩ := U.update q s
  exact ⟨l ∘ k, U.comp_mem hk hl, fun x => (congrArg q.run (hS x)).trans (hq (k x))⟩

/-- A part that ends with a value. -/
theorem Moved.ok {S : X → State} {s : State} (h : Moved γ K S s) (a : α) :
    Carried γ K (fun x => Part.ok a (S x)) (.ok a s) := by
  obtain ⟨k, hk, hS⟩ := h
  exact ⟨k, hk, fun x => congrArg _ (hS x)⟩

/-- A part that raises where it stands. -/
theorem Unread.raised (U : Unread γ K) (f : CoreFault) (s : State) :
    Carried γ K (fun x => Part.raised (α := α) f (γ x s)) (.raised f s) := ⟨id, U.id_mem, fun _ => rfl⟩

/-- A part that ends with a value where it stands. -/
theorem Unread.ok (U : Unread γ K) (a : α) (s : State) : Carried γ K (fun x => Part.ok a (γ x s)) (.ok a s) :=
  Moved.ok ⟨id, U.id_mem, fun _ => rfl⟩ a

/-- One part after another. -/
theorem Unread.andThen (U : Unread γ K) {P : X → Part α} {q : Part α} {g : α → State → Part β} (h : Carried γ K P q)
    (hg : ∀ a u, Carried γ K (fun x => g a (γ x u)) (g a u)) :
    Carried γ K (fun x => (P x).andThen g) (q.andThen g) := by
  obtain ⟨k, hk, hP⟩ := h
  cases q with
  | ok a u =>
    obtain ⟨l, hl, hu⟩ := hg a u
    exact ⟨l ∘ k, U.comp_mem hk hl, fun x => (congrArg (·.andThen g) (hP x)).trans (hu (k x))⟩
  | raised f u => exact ⟨k, hk, fun x => congrArg (·.andThen g) (hP x)⟩

/-! ### From a memory access to a step -/

/-- A memory read passes the change on. -/
theorem Unread.memRead (U : Unread γ K) (a : Word) (s : State) :
    Carried γ K (fun x => memRead a (γ x s)) (memRead a s) := by
  cases h : s.inRange a
  · simp only [memRead_outOfRange, U.inRange, h]
    exact U.raised _ s
  · simp only [memRead_inRange, U.inRange, h, readEvent, U.peek]
    exact (U.update (.traced _) s).ok _

/-- So does the end of a full resolution. -/
theorem Unread.latch (U : Unread γ K) (v : Word) (ea : Option Word) (m : Mode) (n : Nat) (s : State) :
    Carried γ K (fun x => latch v ea m n (γ x s)) (latch v ea m n s) := (U.update (.setOr v) s).ok _

/-- Full resolution passes the change on. -/
theorem Unread.resolve (U : Unread γ K) (op : Operand) (w pc0 : Word) (s : State) :
    Carried γ K (fun x => resolve op w pc0 (γ x s)) (resolve op w pc0 s) := by
  cases hm : op.mode s.cfg with
  | direct n | immediate =>
    simp only [Machine.resolve, U.cfg, hm]
    exact U.andThen (U.memRead _ s) fun v u => U.latch v _ _ _ u
  | ptr p =>
    have hp : p ≠ 0#8 := (pointer?_mode (congrArg Mode.pointer? hm)).1
    simp only [Machine.resolve, U.cfg, hm, U.pointer _ _ hp]
    exact U.andThen (U.memRead _ s) fun v u => U.latch v _ _ _ u
  | ptrInc p =>
    have hp : p ≠ 0#8 := (pointer?_mode (congrArg Mode.pointer? hm)).1
    simp only [Machine.resolve, U.cfg, hm, incPointer, pointer_setPointer_self, U.pointer _ _ hp]
    exact U.andThen (U.andThen ((U.update (.setPointer p _ hp) s).ok ()) fun _ u => U.memRead _ u) fun v u =>
      U.latch v _ _ _ u
  | ptrDec p =>
    have hp : p ≠ 0#8 := (pointer?_mode (congrArg Mode.pointer? hm)).1
    simp only [Machine.resolve, U.cfg, hm, U.pointer _ _ hp]
    refine U.andThen (U.memRead _ s) fun v u => ?_
    simp only [decPointer, U.pointer _ _ hp]
    exact (U.moved_run (.setOr v) (U.update (.setPointer p _ hp) u)).ok _
  | wordDirect =>
    simp only [Machine.resolve, U.cfg, hm]
    exact U.andThen (U.memRead _ s) fun x u => U.andThen (U.memRead _ u) fun v u => U.latch v _ _ _ u
  | reservedR | reservedSubMode =>
    simp only [Machine.resolve, U.cfg, hm]
    exact U.raised _ s

/-- Address-only resolution passes the change on. -/
theorem Unread.resolveAddr (U : Unread γ K) (op : Operand) (w pc0 : Word) (s : State) :
    Carried γ K (fun x => resolveAddr op w pc0 (γ x s)) (resolveAddr op w pc0 s) := by
  cases hm : op.mode s.cfg with
  | direct n =>
    simp only [Machine.resolveAddr, U.cfg, hm]
    exact U.ok _ s
  | immediate | wordDirect =>
    simp only [Machine.resolveAddr, U.cfg, hm]
    exact U.andThen (U.memRead _ s) fun v u => U.ok _ u
  | ptr p =>
    have hp : p ≠ 0#8 := (pointer?_mode (congrArg Mode.pointer? hm)).1
    simp only [Machine.resolveAddr, U.cfg, hm, U.pointer _ _ hp]
    exact U.ok _ s
  | ptrInc p | ptrDec p =>
    have hp : p ≠ 0#8 := (pointer?_mode (congrArg Mode.pointer? hm)).1
    simp only [Machine.resolveAddr, U.cfg, hm, incPointer, decPointer, pointer_setPointer_self, U.pointer _ _ hp]
    exact (U.update (.setPointer p _ hp) s).ok _
  | reservedR | reservedSubMode =>
    simp only [Machine.resolveAddr, U.cfg, hm]
    exact U.raised _ s

/-- An instruction that ends passes the change on. -/
theorem Unread.finish (U : Unread γ K) {P : X → Part Nat} {q : Part Nat} {t : State} (h : Carried γ K P q)
    (hq : q.finish = .next t) : ∃ k ∈ K, ∀ x, (P x).finish = .next (γ (k x) t) := by
  obtain ⟨k, hk, hP⟩ := h
  cases q with
  | ok n u =>
    cases hq
    obtain ⟨l, hl, hu⟩ := U.moved_run (.complete n) ⟨k, hk, fun x => rfl⟩
    exact ⟨l, hl, fun x => by rw [hP]; exact congrArg _ (hu x)⟩
  | raised f u =>
    cases hq
    obtain ⟨l, hl, hu⟩ := U.moved_run (.takeFault f) ⟨k, hk, fun x => rfl⟩
    exact ⟨l, hl, fun x => by rw [hP]; exact congrArg _ (hu x)⟩

/-- An instruction that reads its operand passes the change on when its effect does. -/
theorem Unread.withOperand (U : Unread γ K) {i : Instr} {op : Operand} {f : Word → State → State} {s t : State}
    (hf : ∀ v u, Moved γ K (fun x => f v (γ x u)) (f v u)) (h : withOperand i op f s = .next t) :
    ∃ k ∈ K, ∀ x, withOperand i op f (γ x s) = .next (γ (k x) t) := by
  simp only [Machine.withOperand, U.cfg, U.opcodeAddr] at h ⊢
  exact U.finish (U.andThen (U.resolve op _ _ s) fun r u => (hf r.value u).ok _) h

/-- An instruction that uses its target passes the change on when its effect does. -/
theorem Unread.withTarget (U : Unread γ K) {i : Instr} {op : Operand} {f : Target → State → Part Unit} {s t : State}
    (hf : ∀ a u, Carried γ K (fun x => f a (γ x u)) (f a u)) (h : withTarget i op f s = .next t) :
    ∃ k ∈ K, ∀ x, withTarget i op f (γ x s) = .next (γ (k x) t) := by
  simp only [Machine.withTarget, U.cfg, U.opcodeAddr] at h ⊢
  exact U.finish (U.andThen (U.resolveAddr op _ _ s) fun r u => U.andThen (hf r.target u) fun _ u => U.ok _ u) h

/-- STO's effect passes the change on. -/
theorem Unread.stoEffect (U : Unread γ K) (w pc0 : Word) (a : Target) (s : State) :
    Carried γ K (fun x => stoEffect w pc0 a (γ x s)) (stoEffect w pc0 a s) := by
  cases a with
  | literal v => exact U.raised _ s
  | addr ea =>
    cases h : s.inRange ea
    · simp only [stoEffect_addr_outOfRange, U.inRange, h]
      exact U.raised _ s
    · simp only [stoEffect_addr_inRange, U.inRange, h, U.acc]
      exact (U.moved_run (.poke ea s.acc) (U.update (.traced _) s)).ok ()

/-- Every instruction passes the change on. -/
theorem Unread.exec (U : Unread γ K) {i : Instr} {s t : State} (h : exec i s = .next t) :
    ∃ k ∈ K, ∀ x, exec i (γ x s) = .next (γ (k x) t) := by
  cases i with
  | sub op => exact U.withOperand (fun v => U.update (.sub v)) h
  | add op => exact U.withOperand (fun v => U.update (.add v)) h
  | cmp op => exact U.withOperand (fun v => U.update (.cmp v)) h
  | lda op => exact U.withOperand (fun v => U.update (.setAccZS v)) h
  | and op =>
    refine U.withOperand (fun v u => ?_) h
    simp only [andEffect, U.acc]
    exact U.update (.setAccZS _) u
  | neq op =>
    refine U.withOperand (fun v u => ?_) h
    simp only [neqEffect, U.acc]
    exact U.update (.setAccZS _) u
  | sto op =>
    simp only [Machine.exec, execSto, U.cfg, U.opcodeAddr] at h ⊢
    exact U.withTarget (U.stoEffect _ _) h
  | jmp op =>
    refine U.withTarget (fun a u => ?_) h
    simp only [jmpEffect_eq]
    exact (U.update (.setPc _) u).ok ()
  | halt k =>
    cases h
    obtain ⟨k, hk, hs⟩ := U.update .takeHalt s
    exact ⟨k, hk, fun x => congrArg _ (hs x)⟩

/-- The fetch passes the change on. -/
theorem Unread.atDispatch (U : Unread γ K) (s : State) : Moved γ K (fun x => atDispatch (γ x s)) (atDispatch s) := by
  simp only [Machine.atDispatch, readEvent, U.pc, U.peek]
  exact U.moved_run (.setPc _) (U.update (.traced _) s)

/-- A step passes the change on. -/
theorem Unread.step (U : Unread γ K) {s t : State} (h : step s = .next t) :
    ∃ k ∈ K, ∀ x, step (γ x s) = .next (γ (k x) t) := by
  obtain ⟨hs, hcase⟩ := step_cases h
  have hs' (x : X) : (γ x s).status = .running := by rw [U.status, hs]
  have hr' {b : Bool} (hr : s.inRange s.pc = b) (x : X) : (γ x s).inRange (γ x s).pc = b := by
    rw [U.inRange, U.pc, hr]
  have hd' {d : Decoded} (hd : decode s.cfg (s.peek s.pc) = d) (x : X) :
      decode (γ x s).cfg ((γ x s).peek (γ x s).pc) = d := by rw [U.cfg, U.peek, U.pc, hd]
  obtain ⟨hr, rfl⟩ | ⟨hr, hd, rfl⟩ | ⟨hr, i, hd, he⟩ := hcase
  · obtain ⟨k, hk, ht⟩ := U.update (.takeFault (.addressRange s.pc)) s
    refine ⟨k, hk, fun x => ?_⟩
    rw [step_fetchFault (hs' x) (hr' hr x), U.pc]
    exact congrArg _ (ht x)
  · obtain ⟨k, hk, ht⟩ :=
      U.moved_run (.takeFault (.unimplementedOpcode .noHandler (s.peek s.pc) s.pc)) (U.atDispatch s)
    refine ⟨k, hk, fun x => ?_⟩
    rw [step_noHandler (hs' x) (hr' hr x) (hd' hd x), U.peek, U.pc]
    exact congrArg _ (ht x)
  · obtain ⟨k, hk, ha⟩ := U.atDispatch s
    obtain ⟨l, hl, ht⟩ := U.exec he
    refine ⟨l ∘ k, U.comp_mem hk hl, fun x => ?_⟩
    rw [step_instr (hs' x) (hr' hr x) (hd' hd x)]
    exact (congrArg (Machine.exec i) (ha x)).trans (ht (k x))

end

/-! ### OR and the flags Z, V and S -/

/-- The contents of the registers that no instruction reads. -/
structure UnreadRegisters where
  or : Word
  z : Bool
  v : Bool
  s : Bool

/-- The flags Z, V and S as a condition register has them. -/
def UnreadRegisters.withFlags (x : UnreadRegisters) (cr : CondReg) : UnreadRegisters :=
  { x with z := cr.z, v := cr.v, s := cr.s }

/-- The state with those registers replaced. -/
def State.withUnread (x : UnreadRegisters) (s : State) : State :=
  { s with or := x.or, cr := { s.cr with z := x.z, v := x.v, s := x.s } }

/-- No step reads OR, Z, V or S; a step may write some of them. -/
theorem unread_registers : Unread (fun x s => s.withUnread x) Set.univ where
  id_mem := trivial
  comp_mem _ _ := trivial
  cfg _ _ := rfl
  acc _ _ := rfl
  pc _ _ := rfl
  status _ _ := rfl
  mem _ _ := rfl
  pointer _ _ _ _ := rfl
  update q s := by
    cases q with
    | setOr w => exact ⟨fun x => { x with or := w }, trivial, fun _ => rfl⟩
    | sub w | cmp w =>
      exact ⟨(·.withFlags (s.cr.afterSub s.acc w (subWide s.acc w s.cr.m s.cr.c))), trivial, fun _ => rfl⟩
    | add w => exact ⟨(·.withFlags (s.cr.afterAdd s.acc w (addWide s.acc w s.cr.m s.cr.c))), trivial, fun _ => rfl⟩
    | setAccZS res => exact ⟨fun x => { x with z := isZero res, s := sign res }, trivial, fun _ => rfl⟩
    | traced e | setPointer p w hp | setPc w | poke a w | takeFault f | takeHalt | complete n =>
      exact ⟨id, trivial, fun _ => rfl⟩

/-- Settles O47: a step passes a change of OR, Z, V and S on as such a change. -/
theorem unreadRegistersDoNotSteer : Obligations.UnreadRegistersDoNotSteer := by
  intro s t o bz bv bs h
  obtain ⟨k, -, hk⟩ := unread_registers.step h
  exact ⟨_, hk ⟨o, bz, bv, bs⟩, rfl⟩

/-! ### PTR[0] -/

/-- Setting two pointers commutes. -/
theorem setPointer_comm (s : State) {p q : BitVec 8} (h : p ≠ q) (v w : Word) :
    (s.setPointer p v).setPointer q w = (s.setPointer q w).setPointer p v := by
  have hne : p.toNat ≠ q.toNat := fun e => h (BitVec.eq_of_toNat_eq e)
  simp only [State.setPointer, Vector.set_comm _ _ hne]

/-- No step reads PTR[0], nor writes it. -/
theorem unread_pointerZero : Unread (fun v s => s.setPointer 0#8 v) {id} where
  id_mem := rfl
  comp_mem := by rintro _ _ rfl rfl; rfl
  cfg _ _ := rfl
  acc _ _ := rfl
  pc _ _ := rfl
  status _ _ := rfl
  mem _ _ := rfl
  pointer v s _ hp := pointer_setPointer_of_ne s v hp
  update q s := by
    refine ⟨id, rfl, fun x => ?_⟩
    cases q with
    | setPointer p w hp => exact setPointer_comm s hp.symm x w
    | traced e | setOr w | setPc w | poke a w | sub w | add w | cmp w | setAccZS res | takeFault f | takeHalt
    | complete n => rfl

/-- Settles O48: the `/P+` and `/P-` operands have P ≠ 0, so PTR[0] stays, and a step passes a change of it on. -/
theorem pointerZeroIsNeverUsed : Obligations.PointerZeroIsNeverUsed := by
  intro s t v h
  obtain ⟨k, rfl, hk⟩ := unread_pointerZero.step h
  refine ⟨?_, hk v⟩
  have hself : s.setPointer 0#8 (s.pointer 0#8) = s := by simp [State.setPointer, State.pointer]
  have ht := hk (s.pointer 0#8)
  rw [hself, h] at ht
  rw [Host.Outcome.next.inj ht]
  exact pointer_setPointer_self t 0#8 (s.pointer 0#8)

/-! ### The tracer -/

/-- A tracer that is given no events is as before. -/
theorem id_eq_map_append_nil : id = Option.map (([] : List TraceEvent) ++ ·) := by
  funext x
  cases x <;> rfl

/-- No step reads the tracer, and a step gives it events that do not depend on it. -/
theorem unread_tracer : Unread (fun x s => { s with tracer := x })
    {k | ∃ events : List TraceEvent, k = Option.map (events ++ ·)} where
  id_mem := ⟨[], id_eq_map_append_nil⟩
  comp_mem := by
    rintro _ _ ⟨es, rfl⟩ ⟨fs, rfl⟩
    exact ⟨fs ++ es, by funext x; cases x <;> simp⟩
  cfg _ _ := rfl
  acc _ _ := rfl
  pc _ _ := rfl
  status _ _ := rfl
  mem _ _ := rfl
  pointer _ _ _ _ := rfl
  update q s := by
    cases q with
    | traced e => exact ⟨_, ⟨[e], rfl⟩, fun _ => rfl⟩
    | setPointer p w hp | setOr w | setPc w | poke a w | sub w | add w | cmp w | setAccZS res | takeFault f | takeHalt
    | complete n => exact ⟨id, ⟨[], id_eq_map_append_nil⟩, fun _ => rfl⟩

/-- Settles O50: a step passes a change of the tracer on, with the step's events added. -/
theorem tracingIsAnObserver : Obligations.TracingIsAnObserver := by
  intro s t h
  obtain ⟨_, ⟨events, rfl⟩, hk⟩ := unread_tracer.step h
  exact ⟨events, hk⟩

end Sys2Proof.Machine

/-! The instructions (41_arithmetic.md, 42_logic_and_move.md, 43_control.md): how each completes, how it stops, and its
frame on every path. -/

namespace Sys2Proof.Machine

/-! ### Completion and faults, for an instruction being executed at `pc0` -/

/-- An instruction whose operand can be read completes with its effect (R90, R107). -/
theorem withOperand_completes {i : Instr} {op : Operand} {pc0 : Word} {s : State} (f : Word → State → State)
    (hx : ExecutingAt i pc0 s) (hr : operandReady op pc0 s = true) :
    withOperand i op f s =
      .next (complete (modeCycles op s) (f (operandValue op pc0 s) (afterResolve op pc0 s))) := by
  rw [withOperand_eq, opcodeAddr_executing hx, if_pos hr]

/-- An instruction whose operand cannot be read faults where the resolution stopped (R89, R109). -/
theorem withOperand_faults {i : Instr} {op : Operand} {pc0 : Word} {s : State} (f : Word → State → State)
    (hx : ExecutingAt i pc0 s) (hr : operandReady op pc0 s = false) :
    withOperand i op f s = .next (takeFault (operandFault op (encode s.cfg i) pc0 s) (afterRaise op pc0 s)) := by
  rw [withOperand_eq, opcodeAddr_executing hx, if_neg (by simp [hr])]

/-- The target that address-only resolution names when it can finish (R87). -/
def targetOf (op : Operand) (pc0 : Word) (s : State) : Target :=
  match operandAddr op pc0 s with
  | some a => .addr a
  | none => .literal (extWord pc0 s)

/-- An instruction whose target can be named runs its effect on it. -/
theorem withTarget_runs {i : Instr} {op : Operand} {pc0 : Word} {s : State} (f : Target → State → Part Unit)
    (hx : ExecutingAt i pc0 s) (hr : targetReady op pc0 s = true) :
    withTarget i op f s =
      ((f (targetOf op pc0 s) (afterResolveAddr op pc0 s)).andThen fun _ t => .ok (modeCycles op s) t).finish := by
  rw [withTarget_eq, opcodeAddr_executing hx, if_pos hr]
  rfl

/-- An instruction whose target cannot be named faults and changes nothing else. -/
theorem withTarget_faults {i : Instr} {op : Operand} {pc0 : Word} {s : State} (f : Target → State → Part Unit)
    (hx : ExecutingAt i pc0 s) (hr : targetReady op pc0 s = false) :
    withTarget i op f s = .next (takeFault (targetFault op (encode s.cfg i) pc0 s) s) := by
  rw [withTarget_eq, opcodeAddr_executing hx, if_neg (by simp [hr])]

/-! ### SUB, ADD and CMP -/

/-- SUB's wide result as one sum (R91). -/
theorem subWide_eq (a v : Word) (m c : Bool) :
    subWide a v m c = (v.toNat : Int) - a.toNat + (if m then (if c then 1 else 0) - 1 else 0) := by
  cases m <;> cases c <;> simp [subWide, flagInt]
  omega

/-- Bit 16 of SUB's wide result says that it is negative (R92). -/
theorem subWide_bit16_iff (a v : Word) (m c : Bool) : subWide a v m c / 65536 % 2 = 1 ↔ subWide a v m c < 0 := by
  have h := subWide_range a v m c
  omega

/-- The flags after SUB and CMP as R92 states them. -/
theorem afterSub_eq (cr : CondReg) (a v : Word) (r : Int) :
    cr.afterSub a v r =
      { i := cr.i, m := cr.m, f := cr.f
        c := decide (r / 65536 % 2 = 1)
        z := decide (r % 65536 = 0)
        s := (BitVec.ofInt 16 r).getLsbD 15
        v := decide (a.getLsbD 15 ≠ v.getLsbD 15 ∧ (BitVec.ofInt 16 r).getLsbD 15 = a.getLsbD 15) } := by
  simp only [CondReg.afterSub, bit16_eq, isZero_narrow, sign_eq, subOverflow_eq]
  rfl

/-- Settles O25: SUB's effect on the operand's value by the formula for its wide result, or the resolver's raise. -/
theorem subtractRule : Obligations.SubtractRule := by
  intro op pc0 s hx v r
  have hr : subWide s.acc v s.cr.m s.cr.c = r := subWide_eq s.acc v s.cr.m s.cr.c
  refine ⟨functionCode_encodeFields _ op, hr ▸ subWide_bit16_iff .., fun h => ?_, fun h => ?_⟩
  · have he := withOperand_completes subEffect hx h
    rw [← afterSub_eq, ← hr]
    exact he
  · obtain ⟨hf, -⟩ := afterRaise_frame op pc0 s
    exact ⟨_, withOperand_faults subEffect hx h, rfl, hf.acc, hf.cr⟩

/-- Settles O27: CMP's effect is SUB's on the flags. -/
theorem compareCompletes : Obligations.CompareCompletes := by
  intro op pc0 s hx h v r
  have hr : subWide s.acc v s.cr.m s.cr.c = r := subWide_eq s.acc v s.cr.m s.cr.c
  have he := withOperand_completes cmpEffect hx h
  have hc : (r < 0) = (r / 65536 % 2 = 1) := by rw [← hr, subWide_bit16_iff]
  simp only [hc]
  rw [← afterSub_eq, ← hr]
  exact he

/-- ADD's wide result as one sum of natural numbers (R93). -/
theorem addWide_eq (a v : Word) (m c : Bool) :
    addWide a v m c = ((v.toNat + a.toNat + (if m && c then 1 else 0) : Nat) : Int) := by
  cases m <;> cases c <;> simp [addWide, flagInt]

/-- The flags after ADD as R93 states them, for a wide result that has 17 bits. -/
theorem afterAdd_eq (cr : CondReg) (a v : Word) {r : Nat} (hr : r ≤ 131071) :
    cr.afterAdd a v r =
      { i := cr.i, m := cr.m, f := cr.f
        c := decide (65536 ≤ r)
        z := decide (r % 65536 = 0)
        s := (BitVec.ofNat 16 r).getLsbD 15
        v := decide (a.getLsbD 15 = v.getLsbD 15 ∧ (BitVec.ofNat 16 r).getLsbD 15 ≠ a.getLsbD 15) } := by
  have hc : ((r : Int) / 65536 % 2 = 1) = (65536 ≤ r) := by rw [eq_iff_iff]; omega
  have hz : ((r : Int) % 65536 = 0) = (r % 65536 = 0) := by rw [eq_iff_iff]; omega
  have hn : narrow r = BitVec.ofNat 16 r := BitVec.ofInt_natCast 16 r
  rw [CondReg.afterAdd, bit16_eq, isZero_narrow, sign_eq, addOverflow_eq, hn]
  simp only [hc, hz]

/-- Settles O26: ADD's effect on the operand's value by the formula for its wide result. -/
theorem addCompletes : Obligations.AddCompletes := by
  intro op pc0 s hx h v r
  have hr : addWide s.acc v s.cr.m s.cr.c = (r : Int) := addWide_eq s.acc v s.cr.m s.cr.c
  have hmax : r ≤ 131071 := by have := addWide_range s.acc v s.cr.m s.cr.c; omega
  have he := withOperand_completes addEffect hx h
  rw [← afterAdd_eq _ _ _ hmax, ← hr, ← BitVec.ofInt_natCast, ← hr]
  exact he

/-! ### LDA, AND and NEQ -/

/-- The flags after LDA, AND and NEQ over the result as a number (R95). -/
theorem afterMove_eq (cr : CondReg) (res : Word) :
    cr.afterMove res =
      { i := cr.i, v := cr.v, c := cr.c, m := cr.m, f := cr.f
        z := decide (res.toNat = 0)
        s := decide (32768 ≤ res.toNat) } := by
  have hz : isZero res = decide (res.toNat = 0) := by
    rw [Bool.eq_iff_iff]
    simp [isZero, ← BitVec.toNat_inj]
  rw [CondReg.afterMove, hz, sign, BitVec.msb_eq_decide]

/-- Settles O28: one effect, on the operand's value and on its bitwise combinations with ACC. -/
theorem moveAndLogicComplete : Obligations.MoveAndLogicComplete := by
  intro op pc0 s h v done
  have hdone (res : Word) : complete (modeCycles op s) (setAccZS res (afterResolve op pc0 s)) = done res := by
    simp only [setAccZS, afterMove_eq]
    rfl
  refine ⟨fun hx => ?_, fun hx => ?_, fun hx => ?_⟩
  · rw [← hdone]
    exact withOperand_completes ldaEffect hx h
  · have hand : BitVec.ofNat 16 (s.acc.toNat &&& v.toNat) = s.acc &&& v := BitVec.eq_of_toNat_eq (by simp)
    rw [hand, ← hdone]
    exact withOperand_completes andEffect hx h
  · have hxor : BitVec.ofNat 16 (s.acc.toNat ^^^ v.toNat) = s.acc ^^^ v := BitVec.eq_of_toNat_eq (by simp)
    rw [hxor, ← hdone]
    exact withOperand_completes neqEffect hx h

/-! ### STO -/

/-- STO at an address in range stores ACC there (R96). -/
theorem execSto_stores {op : Operand} {pc0 ea : Word} {s : State} (hx : ExecutingAt (.sto op) pc0 s)
    (hr : targetReady op pc0 s = true) (ha : operandAddr op pc0 s = some ea) (hin : s.inRange ea = true) :
    exec (.sto op) s = .next (complete (modeCycles op s)
      (((afterResolveAddr op pc0 s).traced [⟨.write, ea, s.acc⟩]).poke ea s.acc)) := by
  have he := withTarget_runs (stoEffect (encode s.cfg (.sto op)) (opcodeAddr (.sto op) s)) hx hr
  rw [targetOf, ha, stoEffect_addr_inRange (s := afterResolveAddr op pc0 s) hin] at he
  exact he

/-- STO at an address above MEMTOP faults after the pointer change (R96). -/
theorem execSto_faults {op : Operand} {pc0 ea : Word} {s : State} (hx : ExecutingAt (.sto op) pc0 s)
    (hr : targetReady op pc0 s = true) (ha : operandAddr op pc0 s = some ea) (hin : s.inRange ea = false) :
    exec (.sto op) s = .next (takeFault (.addressRange ea) (afterResolveAddr op pc0 s)) := by
  have he := withTarget_runs (stoEffect (encode s.cfg (.sto op)) (opcodeAddr (.sto op) s)) hx hr
  rw [targetOf, ha, stoEffect_addr_outOfRange (s := afterResolveAddr op pc0 s) hin] at he
  exact he

/-- STO with no effective address faults after the extension word has been read (R96). -/
theorem execSto_noAddress {op : Operand} {pc0 : Word} {s : State} (hx : ExecutingAt (.sto op) pc0 s)
    (hr : targetReady op pc0 s = true) (ha : operandAddr op pc0 s = none) :
    exec (.sto op) s = .next (takeFault (.unimplementedOpcode .noEffectiveAddress (encode s.cfg (.sto op)) pc0)
      (afterResolveAddr op pc0 s)) := by
  have he := withTarget_runs (stoEffect (encode s.cfg (.sto op)) (opcodeAddr (.sto op) s)) hx hr
  rw [targetOf, ha, opcodeAddr_executing hx] at he
  change withTarget _ _ (stoEffect _ (opcodeAddr (.sto op) s)) s = _
  rw [opcodeAddr_executing hx]
  exact he

/-- Settles O29: the store leaves ACC at the address and every other word. -/
theorem storeCompletes : Obligations.StoreCompletes := by
  intro op pc0 ea s hi hx hr ha hin
  refine ⟨_, execSto_stores hx hr ha (inRange_iff.2 hin), ?_, fun a hne => ?_, ?_⟩
  · exact peek_poke_self (s := (afterResolveAddr op pc0 s).traced _) hi ea s.acc
  · exact peek_poke_of_ne ((afterResolveAddr op pc0 s).traced _) s.acc hne
  · rw [afterResolveAddr, traced_traced]
    rfl

/-- Settles O30: the three ways in which STO stops. -/
theorem storeFaults : Obligations.StoreFaults := by
  intro op pc0 s hx
  refine ⟨fun hm hin => ?_, fun ea hr ha hin => ?_, fun hr => ?_⟩
  · have hr : targetReady op pc0 s = true := by
      simp only [targetReady, notReserved, usesExt, hm, inRange_iff.2 hin, Bool.or_true, Bool.and_true]
    have ha : operandAddr op pc0 s = none := by simp only [operandAddr, hm]
    have hafter : afterResolveAddr op pc0 s = s.traced [readEvent s (pc0 + 1#16)] := by
      simp only [afterResolveAddr, pointersAfter, extEvents, usesExt, hm, if_true]
    rw [execSto_noAddress hx hr ha, hafter]
    rfl
  · exact execSto_faults hx hr ha (not_inRange_iff.2 hin)
  · exact withTarget_faults _ hx hr

/-! ### JMP and HALT -/

/-- Settles O31: the target becomes PC. -/
theorem jumpCompletes : Obligations.JumpCompletes := by
  intro op pc0 s hx hr
  have he := withTarget_runs jmpEffect hx hr
  rw [jmpEffect_eq, targetOf] at he
  cases ha : operandAddr op pc0 s <;> rw [ha] at he <;> exact he

/-- The fault of address-only resolution that cannot finish: a reserved encoding, or an extension word above MEMTOP. -/
theorem targetFault_cases {op : Operand} {w pc0 : Word} {s : State} {f : CoreFault} (h : targetReady op pc0 s = false)
    (hf : f = targetFault op w pc0 s) :
    (op.mode s.cfg = .reservedR ∧ f = .unimplementedOpcode .reservedR w pc0 ∨
      op.mode s.cfg = .reservedSubMode ∧ f = .unimplementedOpcode .reservedSubMode w pc0) ∨
    usesExt op s = true ∧ f = .addressRange (pc0 + 1#16) ∧ s.cfg.memTop.toNat < (pc0 + 1#16).toNat := by
  subst hf
  cases hm : op.mode s.cfg with
  | reservedR => exact .inl (.inl ⟨rfl, by simp only [targetFault, hm]⟩)
  | reservedSubMode => exact .inl (.inr ⟨rfl, by simp only [targetFault, hm]⟩)
  | direct n | ptr p | ptrInc p | ptrDec p => simp [targetReady, notReserved, usesExt, hm] at h
  | immediate | wordDirect =>
    have hin : s.inRange (pc0 + 1#16) = false := by simpa [targetReady, notReserved, usesExt, hm] using h
    exact .inr ⟨by simp only [usesExt, hm], by simp only [targetFault, hm], not_inRange_iff.1 hin⟩

/-- Settles O53: JMP stops where address-only resolution does, with its fault. -/
theorem jumpFaults : Obligations.JumpFaults := by
  intro op pc0 s hx hr fault
  refine ⟨withTarget_faults jmpEffect hx hr, fun a ha => ?_⟩
  obtain (⟨-, h⟩ | ⟨-, h⟩) | ⟨-, h, habove⟩ := targetFault_cases (w := encode s.cfg (.jmp op)) (f := fault) hr rfl <;>
    cases ha.symm.trans h
  exact habove

/-- Settles O32: HALT is `takeHalt`. -/
theorem haltStopsTheCore : Obligations.HaltStopsTheCore := fun _ _ => rfl

/-! ### Frames -/

/-- The instructions that read an operand share one shape (R90), with an effect that is quiet. -/
theorem exec_reading {op : Operand} {i : Instr} (h : i ∈ [Instr.sub op, .add op, .cmp op, .lda op, .and op, .neq op]) :
    i.operand? = some op ∧ ∃ f, QuietEffect f ∧ ∀ s, exec i s = withOperand i op f s := by
  simp only [List.mem_cons, List.not_mem_nil, or_false] at h
  obtain rfl | rfl | rfl | rfl | rfl | rfl := h
  · exact ⟨rfl, subEffect, subEffect_quiet, fun _ => rfl⟩
  · exact ⟨rfl, addEffect, addEffect_quiet, fun _ => rfl⟩
  · exact ⟨rfl, cmpEffect, cmpEffect_quiet, fun _ => rfl⟩
  · exact ⟨rfl, ldaEffect, ldaEffect_quiet, fun _ => rfl⟩
  · exact ⟨rfl, andEffect, andEffect_quiet, fun _ => rfl⟩
  · exact ⟨rfl, neqEffect, neqEffect_quiet, fun _ => rfl⟩

/-- Settles O33: the resolver's raise ends the instruction, and the raise is in the resolver's frame. -/
theorem unreadableOperandFaults : Obligations.UnreadableOperandFaults := by
  intro op pc0 s i hi hx hr fault
  obtain ⟨-, f, -, he⟩ := exec_reading hi
  obtain ⟨hf, hor⟩ := afterRaise_frame op pc0 s
  exact ⟨(he s).trans (withOperand_faults f hx hr), peek_congr hf.cfg hf.mem, hf.acc, hor, hf.cr, hf.pc⟩

/-- An instruction that reads its operand ends with its effect, or with a fault, on a state that the resolver left. -/
theorem withOperand_cases {i : Instr} {op : Operand} {f : Word → State → State} {s t : State}
    (h : withOperand i op f s = .next t) :
    ∃ u, ResolverFrame s u ∧ ((∃ n v, t = complete n (f v u)) ∨ ∃ e, t = takeFault e u) := by
  rw [withOperand_eq] at h
  split at h <;> cases h
  · exact ⟨_, afterResolve_frame op _ s, .inl ⟨_, _, rfl⟩⟩
  · exact ⟨_, (afterRaise_frame op _ s).1, .inr ⟨_, rfl⟩⟩

/-- CMP leaves ACC (R94). -/
theorem execCmp_acc {op : Operand} {s t : State} (h : exec (.cmp op) s = .next t) : t.acc = s.acc := by
  obtain ⟨u, hu, ⟨n, v, rfl⟩ | ⟨e, rfl⟩⟩ := withOperand_cases h
  · exact hu.acc
  · exact hu.acc

/-- LDA, AND and NEQ leave C and V (R95, R97, R98): whatever the result, the flags are those of `afterMove`. -/
theorem execMove_flags {op : Operand} {i : Instr} {s t : State} (hi : i ∈ [Instr.lda op, .and op, .neq op])
    (h : exec i s = .next t) : t.cr.c = s.cr.c ∧ t.cr.v = s.cr.v := by
  have hmove {f : Word → State → State} (hf : ∀ v u, ∃ res, f v u = setAccZS res u)
      (h : withOperand i op f s = .next t) : t.cr.c = s.cr.c ∧ t.cr.v = s.cr.v := by
    obtain ⟨u, hu, ⟨n, v, rfl⟩ | ⟨e, rfl⟩⟩ := withOperand_cases h
    · obtain ⟨res, hres⟩ := hf v u
      rw [hres, ← hu.cr]
      exact ⟨rfl, rfl⟩
    · rw [← hu.cr]
      exact ⟨rfl, rfl⟩
  simp only [List.mem_cons, List.not_mem_nil, or_false] at hi
  obtain rfl | rfl | rfl := hi
  · exact hmove (f := ldaEffect) (fun v _ => ⟨v, rfl⟩) h
  · exact hmove (f := andEffect) (fun v u => ⟨u.acc &&& v, rfl⟩) h
  · exact hmove (f := neqEffect) (fun v u => ⟨u.acc ^^^ v, rfl⟩) h

/-- Settles O34: the frame of every instruction, and what CMP, LDA, AND and NEQ keep besides. -/
theorem readingInstructionsFrame : Obligations.ReadingInstructionsFrame := by
  intro op s t i hi h
  obtain ⟨ho, -⟩ := exec_reading hi
  have hf := exec_frame h
  have hmem : t.mem = s.mem := hf.mem.resolve_left (by rintro ⟨op', rfl⟩; simp at hi)
  have hpc : t.pc = s.pc := hf.pc.resolve_left (by rintro ⟨op', rfl⟩; simp at hi)
  refine ⟨peek_congr hf.cfg hmem, hmem, hpc, hf.cfg, hf.flagI, hf.flagM, hf.flagF, fun q h1 h2 => ?_, ?_,
    fun hm => execMove_flags hm h⟩
  · refine hf.pointers q fun op' ho' => ?_
    cases ho.symm.trans ho'
    exact ⟨h1, h2⟩
  · rintro rfl
    exact execCmp_acc h

/-- The machine's own pc0 is where the instruction executes (R105). -/
theorem executingAt_opcodeAddr (i : Instr) (s : State) : ExecutingAt i (opcodeAddr i s) s := by
  simp [ExecutingAt, opcodeAddr]

/-- Everything STO can do: fault before, with or after its target, or store. -/
theorem execSto_cases {op : Operand} {pc0 : Word} {s t : State} (hx : ExecutingAt (.sto op) pc0 s)
    (h : exec (.sto op) s = .next t) :
    targetReady op pc0 s = false ∧ t = takeFault (targetFault op (encode s.cfg (.sto op)) pc0 s) s ∨
    targetReady op pc0 s = true ∧
      (operandAddr op pc0 s = none ∧
        t = takeFault (.unimplementedOpcode .noEffectiveAddress (encode s.cfg (.sto op)) pc0)
          (afterResolveAddr op pc0 s) ∨
      ∃ ea, operandAddr op pc0 s = some ea ∧
        (s.inRange ea = false ∧ t = takeFault (.addressRange ea) (afterResolveAddr op pc0 s) ∨
        s.inRange ea = true ∧ t = complete (modeCycles op s)
          (((afterResolveAddr op pc0 s).traced [⟨.write, ea, s.acc⟩]).poke ea s.acc))) := by
  cases hr : targetReady op pc0 s
  · exact .inl ⟨rfl, Host.Outcome.next.inj (h.symm.trans (withTarget_faults _ hx hr))⟩
  · refine .inr ⟨rfl, ?_⟩
    cases ha : operandAddr op pc0 s with
    | none => exact .inl ⟨rfl, Host.Outcome.next.inj (h.symm.trans (execSto_noAddress hx hr ha))⟩
    | some ea =>
      refine .inr ⟨ea, rfl, ?_⟩
      cases hin : s.inRange ea
      · exact .inl ⟨rfl, Host.Outcome.next.inj (h.symm.trans (execSto_faults hx hr ha hin))⟩
      · exact .inr ⟨rfl, Host.Outcome.next.inj (h.symm.trans (execSto_stores hx hr ha hin))⟩

/-- What STO does to memory: nothing, or a store in range at the address that address-only resolution names. -/
theorem execSto_memory {op : Operand} {s t : State} (h : exec (.sto op) s = .next t) :
    (∀ a, t.peek a = s.peek a) ∨
      ∃ ea m n u, resolveAddr op (encode s.cfg (.sto op)) (opcodeAddr (.sto op) s) s = .ok ⟨.addr ea, m, n⟩ u ∧
        s.inRange ea = true ∧ ∀ a, a ≠ ea → t.peek a = s.peek a := by
  obtain ⟨-, rfl⟩ | ⟨hr, ⟨-, rfl⟩ | ⟨ea, ha, ⟨-, rfl⟩ | ⟨hin, rfl⟩⟩⟩ := execSto_cases (executingAt_opcodeAddr _ s) h
  · exact .inl fun _ => rfl
  · exact .inl fun _ => rfl
  · exact .inl fun _ => rfl
  · have hres := resolveAddr_ready (encode s.cfg (.sto op)) hr
    rw [ha] at hres
    exact .inr ⟨_, _, _, _, hres, hin, fun a => peek_poke_of_ne ((afterResolveAddr op _ s).traced _) s.acc⟩

/-- Settles O35: the frame of STO, and the one word of memory it may change. -/
theorem storeFrame : Obligations.StoreFrame := by
  intro op s t h target
  obtain ⟨hf, hacc, hor, hcr⟩ := execSto_frame h
  have hpc : t.pc = s.pc := hf.pc.resolve_left (by rintro ⟨op', h'⟩; cases h')
  refine ⟨hacc, hor, hpc, hcr, hf.cfg, fun q h1 h2 => hf.pointers q (by rintro _ ⟨⟩; exact ⟨h1, h2⟩), ?_, ?_⟩
  · intro ea m n u ht
    obtain hall | ⟨ea', m', n', u', ht', hin, hrest⟩ := execSto_memory h
    · exact ⟨fun a _ => hall a, fun _ => hall⟩
    · cases ht.symm.trans ht'
      exact ⟨hrest, fun habove => absurd (inRange_iff.1 hin) (by omega)⟩
  · intro hne
    obtain hall | ⟨ea', m', n', u', ht', -, -⟩ := execSto_memory h
    · exact hall
    · exact absurd ht' (hne ea' m' n' u')

/-- Everything JMP can do: fault and change nothing else, or complete with the pointer change of its mode. -/
theorem execJmp_cases {op : Operand} {pc0 : Word} {s t : State} (hx : ExecutingAt (.jmp op) pc0 s)
    (h : exec (.jmp op) s = .next t) :
    targetReady op pc0 s = false ∧ t = takeFault (targetFault op (encode s.cfg (.jmp op)) pc0 s) s ∨
    t.status = s.status ∧ t.ptr = pointersAfter op s := by
  cases hr : targetReady op pc0 s
  · exact .inl ⟨rfl, Host.Outcome.next.inj (h.symm.trans (withTarget_faults jmpEffect hx hr))⟩
  · rw [Host.Outcome.next.inj (h.symm.trans (jumpCompletes op pc0 s hx hr))]
    exact .inr ⟨rfl, rfl⟩

/-- Settles O36: the frames of JMP and HALT. -/
theorem controlFrame : Obligations.ControlFrame := by
  refine ⟨fun op s t h => ?_, fun k s t h => ?_⟩
  · obtain ⟨hf, hacc, hor, hcr, hmem⟩ := execJmp_frame h
    refine ⟨hacc, hor, hcr, hf.cfg, peek_congr hf.cfg hmem, hmem,
      fun q h1 h2 => hf.pointers q (by rintro _ ⟨⟩; exact ⟨h1, h2⟩), fun f hfault hs => ?_⟩
    obtain ⟨-, rfl⟩ | ⟨hst, -⟩ := execJmp_cases (executingAt_opcodeAddr _ s) h
    · rfl
    · rw [hst, hs] at hfault
      cases hfault
  · cases h
    exact ⟨rfl, rfl, rfl, rfl, fun _ => rfl, rfl, rfl, rfl, rfl⟩

end Sys2Proof.Machine

/-! The step (44_controller.md R102 to R114; 60_exceptions.md R121 to R123; 70_reset_and_hazards.md R140): what it runs,
reports and raises, and which registers it leaves alone. -/

namespace Sys2Proof.Machine

/-! ### Dispatch -/

/-- Settles O37: the state at dispatch, written out. -/
theorem stepRunsTheDecodedInstruction : Obligations.StepRunsTheDecodedInstruction :=
  fun _ _ hs hr hd => step_instr hs (inRange_iff.2 hr) hd

/-- Settles O39: the fault is taken at dispatch. -/
theorem unhandledWordFaults : Obligations.UnhandledWordFaults :=
  fun _ hs hr hd => step_noHandler hs (inRange_iff.2 hr) hd

/-- A decoded instruction is at dispatch being executed at the address of its word (R105). -/
theorem executingAt_atDispatch {s : State} {i : Instr} (hd : decode s.cfg (s.peek s.pc) = .instr i) :
    ExecutingAt i s.pc (atDispatch s) := by
  rw [ExecutingAt, atDispatch_pc, atDispatch_cfg, encode_of_decode hd]

/-! ### What a step reports -/

/-- The three ways a step ends (R107 to R110): it continues with the cost of its mode, halts, or faults and leaves ACC,
OR, the flags and memory as before. -/
theorem step_ending {s t : State} (h : step s = .next t) :
    (∃ i op, decode s.cfg (s.peek s.pc) = .instr i ∧ i.operand? = some op ∧ t.status = .running ∧
      t.result = some (.continue_ (modeCycles op s))) ∨
    (s.inRange s.pc = true ∧ (∃ k, decode s.cfg (s.peek s.pc) = .instr (.halt k)) ∧ t.status = .halted ∧
      t.result = some .halt) ∨
    ∃ f, t.status = .faulted f ∧ t.result = some (.fault f) ∧ t.acc = s.acc ∧ t.or = s.or ∧ t.cr = s.cr ∧
      t.mem = s.mem := by
  obtain ⟨hs, ⟨-, rfl⟩ | ⟨-, -, rfl⟩ | ⟨hr, i, hd, he⟩⟩ := step_cases h
  · exact .inr (.inr ⟨_, rfl, rfl, rfl, rfl, rfl, rfl⟩)
  · exact .inr (.inr ⟨_, rfl, rfl, rfl, rfl, rfl, rfl⟩)
  · obtain ⟨hst, op, ho, hres⟩ | ⟨⟨k, rfl⟩, hst, hres⟩ | hfault := (exec_frame he).ending
    · exact .inl ⟨i, op, hd, ho, hst.trans hs, hres⟩
    · exact .inr (.inl ⟨hr, ⟨k, hd⟩, hst, hres⟩)
    · exact .inr (.inr hfault)

/-- A step whose word is HALT halts (R108). -/
theorem step_halt {s t : State} {k : Word} (h : step s = .next t) (hr : s.inRange s.pc = true)
    (hd : decode s.cfg (s.peek s.pc) = .instr (.halt k)) : t.result = some .halt := by
  rw [step_instr (running_of_step h) hr hd] at h
  cases h
  rfl

/-- Settles O41: STATUS and what is reported agree in each ending, and HALT is the only way to halt. -/
theorem stepReportsItsOutcome : Obligations.StepReportsItsOutcome := by
  intro s t h
  have hhalt : s.pc.toNat ≤ s.cfg.memTop.toNat ∧ (∃ k, decode s.cfg (s.peek s.pc) = .instr (.halt k)) →
      t.result = some .halt := fun ⟨hr, k, hd⟩ => step_halt h (inRange_iff.2 hr) hd
  obtain ⟨i, op, hd, ho, hst, hres⟩ | ⟨hr, hk, hst, hres⟩ | ⟨f, hst, hres, -⟩ := step_ending h
  · rw [hres] at hhalt ⊢
    refine ⟨by simp [hst], ?_, by simp [hst], by simp [hst], by simp, fun hk => hhalt hk⟩
    rintro n ⟨⟩
    exact ⟨i, op, hd, ho, rfl⟩
  · rw [hres]
    exact ⟨by simp [hst], by simp, by simp [hst], by simp [hst], fun _ => ⟨inRange_iff.1 hr, hk⟩, fun _ => rfl⟩
  · rw [hres] at hhalt ⊢
    exact ⟨by simp [hst], by simp, by simp [hst], by simp [hst], by simp, fun hk => hhalt hk⟩

/-- Settles O44: of the endings of a step, the fault. -/
theorem faultLeavesRegistersAndMemory : Obligations.FaultLeavesRegistersAndMemory := by
  intro s t f h hf
  have hcfg : t.cfg = s.cfg := (step_keeps_controlFlags h).2.2.2
  obtain ⟨i, op, -, -, hst, -⟩ | ⟨-, -, hst, -⟩ | ⟨f', -, -, hacc, hor, hcr, hmem⟩ := step_ending h
  · cases hst.symm.trans hf
  · cases hst.symm.trans hf
  · exact ⟨hacc, hor, hcr, hcfg, peek_congr hcfg hmem⟩

/-! ### What a step raises -/

/-- An operand that address-only resolution finishes for and that has no address is Immediate (R77). -/
theorem mode_immediate {op : Operand} {pc0 : Word} {s : State} (hr : targetReady op pc0 s = true)
    (ha : operandAddr op pc0 s = none) : op.mode s.cfg = .immediate := by
  cases hm : op.mode s.cfg with
  | immediate => rfl
  | direct n | ptr p | ptrInc p | ptrDec p | wordDirect => simp [operandAddr, hm] at ha
  | reservedR | reservedSubMode => simp [targetReady, notReserved, hm] at hr

/-- The fault of full resolution that cannot finish: address-only resolution's, or an effective address above MEMTOP. -/
theorem operandFault_cases {op : Operand} {w pc0 : Word} {s : State} {f : CoreFault} (h : operandReady op pc0 s = false)
    (hf : f = operandFault op w pc0 s) :
    targetReady op pc0 s = false ∧ f = targetFault op w pc0 s ∨
    ∃ a, operandAddr op pc0 s = some a ∧ f = .addressRange a ∧ s.cfg.memTop.toNat < a.toNat := by
  subst hf
  cases hr : targetReady op pc0 s
  · exact .inl ⟨rfl, by simp [operandFault, hr]⟩
  · cases ha : operandAddr op pc0 s with
    | none => simp [operandReady, hr, ha] at h
    | some a =>
      have hin : s.inRange a = false := by simpa [operandReady, hr, ha] using h
      exact .inr ⟨a, rfl, by simp [operandFault, hr, ha], not_inRange_iff.1 hin⟩

/-- An instruction that reads its operand raises only what the resolution does. -/
theorem execReading_fault {op : Operand} {i : Instr} {pc0 : Word} {s t : State} {f : CoreFault}
    (hi : i ∈ [Instr.sub op, .add op, .cmp op, .lda op, .and op, .neq op]) (hx : ExecutingAt i pc0 s)
    (hs : s.status = .running) (h : exec i s = .next t) (hf : t.status = .faulted f) :
    operandReady op pc0 s = false ∧ f = operandFault op (encode s.cfg i) pc0 s := by
  obtain ⟨-, g, hg, he⟩ := exec_reading hi
  rw [he] at h
  cases hr : operandReady op pc0 s
  · cases (withOperand_faults g hx hr).symm.trans h
    exact ⟨rfl, (Status.faulted.inj hf).symm⟩
  · cases (withOperand_completes g hx hr).symm.trans h
    rw [complete_status, hg.status] at hf
    cases hs.symm.trans hf

/-- Settles O43: the fetch, the dispatch and each shape of instruction raise their own faults. -/
theorem whoRaisesWhat : Obligations.WhoRaisesWhat := by
  intro s t f h hf w pc0 reserved above extension access
  obtain ⟨hs, ⟨hr, rfl⟩ | ⟨hr, hd, rfl⟩ | ⟨hr, i, hd, he⟩⟩ := step_cases h
  · rw [if_pos (not_inRange_iff.1 hr)]
    exact (Status.faulted.inj hf).symm
  · have hd' : decode s.cfg w = .noHandler := hd
    rw [if_neg (not_lt.2 (inRange_iff.1 hr)), hd']
    exact (Status.faulted.inj hf).symm
  · have hd' : decode s.cfg w = .instr i := hd
    have hw : encode (atDispatch s).cfg i = w := encode_of_decode hd
    have hx := executingAt_atDispatch hd
    have htarget {op : Operand} (hr : targetReady op pc0 (atDispatch s) = false)
        (hf : f = targetFault op w pc0 (atDispatch s)) : reserved op ∨ extension op := targetFault_cases hr hf
    have hreading {op : Operand} (hi : i ∈ [Instr.sub op, .add op, .cmp op, .lda op, .and op, .neq op]) :
        reserved op ∨ extension op ∨ access op := by
      obtain ⟨hr, hf⟩ := execReading_fault hi hx hs he hf
      obtain ⟨hr, hf⟩ | hout := operandFault_cases hr (hf.trans (by rw [hw]))
      · exact or_assoc.1 (.inl (htarget hr hf))
      · exact .inr (.inr hout)
    rw [if_neg (not_lt.2 (inRange_iff.1 hr)), hd']
    cases i with
    | halt k => cases he; cases hf
    | sub op | lda op | add op | cmp op | and op | neq op => exact hreading (by simp)
    | jmp op =>
      obtain ⟨hr, rfl⟩ | ⟨hst, -⟩ := execJmp_cases hx he
      · exact htarget hr ((Status.faulted.inj hf).symm.trans (by rw [hw]))
      · cases (hst.trans hs).symm.trans hf
    | sto op =>
      obtain ⟨hr, rfl⟩ | ⟨hr, ⟨ha, rfl⟩ | ⟨ea, ha, ⟨hin, rfl⟩ | ⟨-, rfl⟩⟩⟩ := execSto_cases hx he
      · exact or_assoc.1 (.inl (htarget hr ((Status.faulted.inj hf).symm.trans (by rw [hw]))))
      · exact .inr (.inr (.inr ⟨mode_immediate hr ha, (Status.faulted.inj hf).symm.trans (by rw [hw])⟩))
      · exact .inr (.inr (.inl ⟨ea, ha, (Status.faulted.inj hf).symm, not_inRange_iff.1 hin⟩))
      · cases hs.symm.trans hf

/-! ### What a step leaves alone -/

/-- Settles O45, by the frame of every instruction. -/
theorem stepKeepsControlFlags : Obligations.StepKeepsControlFlags := fun _ _ => step_keeps_controlFlags

/-- Settles O42: the fetch advances PC, and of the instructions only JMP writes it. -/
theorem sequentialFlow : Obligations.SequentialFlow := by
  intro s t h hr hj
  have hpc : t.pc = (atDispatch s).pc := by
    obtain ⟨-, ⟨hr', -⟩ | ⟨-, -, rfl⟩ | ⟨-, i, hd, he⟩⟩ := step_cases h
    · rw [inRange_iff.2 hr] at hr'
      cases hr'
    · rfl
    · refine (exec_frame he).pc.resolve_left ?_
      rintro ⟨op, rfl⟩
      exact hj op hd
  rw [hpc, atDispatch_pc, BitVec.toNat_add, BitVec.toNat_ofNat, Nat.add_mod_mod]

/-- The pointer file is as before, or one pointer has been incremented or decremented (R79, R80). -/
def PointersNudged (s t : State) : Prop :=
  t.ptr = s.ptr ∨ ∃ p, t.ptr = (incPointer p s).ptr ∨ t.ptr = (decPointer p s).ptr

/-- What a finished resolution does to the pointer file. -/
theorem nudged_of_pointersAfter {op : Operand} {s t : State} (h : t.ptr = pointersAfter op s) : PointersNudged s t := by
  unfold pointersAfter at h
  split at h
  · next p _ => exact .inr ⟨p, .inl h⟩
  · next p _ => exact .inr ⟨p, .inr h⟩
  all_goals exact .inl h

/-- What a raise leaves in the pointer file. -/
theorem nudged_afterRaise (op : Operand) (pc0 : Word) (s : State) : PointersNudged s (afterRaise op pc0 s) := by
  unfold afterRaise
  split
  · next p _ => exact .inr ⟨p, .inl rfl⟩
  · split <;> exact .inl rfl
  all_goals exact .inl rfl

/-- An instruction that reads its operand moves at most one pointer. -/
theorem withOperand_nudged {i : Instr} {op : Operand} {f : Word → State → State} {s t : State} (hf : QuietEffect f)
    (h : withOperand i op f s = .next t) : PointersNudged s t := by
  rw [withOperand_eq] at h
  split at h <;> cases h
  · exact nudged_of_pointersAfter (hf.ptr _ _)
  · exact nudged_afterRaise op _ s

/-- Every instruction moves at most one pointer. -/
theorem exec_nudged {i : Instr} {s t : State} (h : exec i s = .next t) : PointersNudged s t := by
  cases i with
  | sub op => exact withOperand_nudged subEffect_quiet h
  | add op => exact withOperand_nudged addEffect_quiet h
  | cmp op => exact withOperand_nudged cmpEffect_quiet h
  | lda op => exact withOperand_nudged ldaEffect_quiet h
  | and op => exact withOperand_nudged andEffect_quiet h
  | neq op => exact withOperand_nudged neqEffect_quiet h
  | halt k => cases h; exact .inl rfl
  | jmp op =>
    obtain ⟨-, rfl⟩ | ⟨-, hp⟩ := execJmp_cases (executingAt_opcodeAddr _ s) h
    · exact .inl rfl
    · exact nudged_of_pointersAfter hp
  | sto op =>
    obtain ⟨-, rfl⟩ | ⟨-, ⟨-, rfl⟩ | ⟨ea, -, ⟨-, rfl⟩ | ⟨-, rfl⟩⟩⟩ := execSto_cases (executingAt_opcodeAddr _ s) h
    · exact .inl rfl
    all_goals exact nudged_of_pointersAfter (op := op) rfl

/-- A step moves at most one pointer. -/
theorem step_nudged {s t : State} (h : step s = .next t) : PointersNudged s t := by
  obtain ⟨-, ⟨-, rfl⟩ | ⟨-, -, rfl⟩ | ⟨-, i, -, he⟩⟩ := step_cases h
  · exact .inl rfl
  · exact .inl rfl
  · exact exec_nudged (s := atDispatch s) he

/-- A pointer file that agrees with that of another state gives the same pointers. -/
theorem pointer_congr {s t : State} (h : t.ptr = s.ptr) (p : BitVec 8) : t.pointer p = s.pointer p := by
  simp only [State.pointer, h]

/-- Settles O49: the pointer that was incremented or decremented, or any where none was. -/
theorem onePointerMovesByOne : Obligations.OnePointerMovesByOne := by
  intro s t h
  obtain hp | ⟨p, hp | hp⟩ := step_nudged h
  · exact ⟨0#8, fun q _ => pointer_congr hp q, .inl (pointer_congr hp _)⟩
  · refine ⟨p, fun q hq => ?_, .inr (.inl ?_)⟩
    · exact (pointer_congr hp q).trans (pointer_setPointer_of_ne s _ hq)
    · exact (pointer_congr hp p).trans (pointer_setPointer_self s p _)
  · refine ⟨p, fun q hq => ?_, .inr (.inr ?_)⟩
    · exact (pointer_congr hp q).trans (pointer_setPointer_of_ne s _ hq)
    · exact (pointer_congr hp p).trans (pointer_setPointer_self s p _)

end Sys2Proof.Machine
